-- ==== Sys2Proof/Word.lean ====
section
/-! DEFINITION. The widths of this hardware's values (spec/00_scope.md R5, R6): a byte is 8 bits, a word is 16 bits. -/

namespace Sys2Proof

/-- An 8-bit value: a register A, X, Y or SP, an operand byte, a byte of memory (R5, R6). -/
abbrev Byte := BitVec 8

/-- A 16-bit value: the program counter or an address (R5, R6). -/
abbrev Word := BitVec 16

end Sys2Proof
end

