-- ==== Sys2Proof/Machine/Bits.lean ====
section
/-! DEFINITION. The bit-field, extension and byte-order helpers of spec/00_scope.md R6, each said once. -/

namespace Sys2Proof

/-- `hi ++ lo`: the 16-bit value `hi * 256 + lo` of two bytes (R6). -/
def wordOf (hi lo : Byte) : Word := hi ++ lo

/-- `w[15:8]` (R6). -/
def hiByte (w : Word) : Byte := w.extractLsb' 8 8

/-- `w[7:0]` (R6). -/
def loByte (w : Word) : Byte := w.extractLsb' 0 8

/-- `zext_16(b)` (R6). -/
def zext16 (b : Byte) : Word := b.setWidth 16

/-- `sext_8(b)` as a 16-bit two's complement value, so that adding it is adding `sext_8(b)` modulo 65536 (R6, R91). -/
def sext16 (b : Byte) : Word := b.signExtend 16

/-- The low 8 bits of a number: "masks to 8 bits" (R8, R37). -/
def byteOf (n : Nat) : Byte := BitVec.ofNat 8 n

/-- Byte `k` of the number `w`, byte 0 least significant. -/
def byteAt (w k : Nat) : Byte := BitVec.ofNat 8 (w / 256 ^ k)

end Sys2Proof
end

