-- ==== Sys2Proof/Syntax.lean ====
section
/-! DEFINITION. The instructions as data: one constructor for each of the 44 rows of spec/opcode_table.json
(spec/30_encoding.md R62), with the operand bytes its addressing mode fetches. -/

namespace Sys2Proof

/-- The 16 mnemonics (R62). -/
inductive Mnemonic where
  /-- load accumulator (R97). -/
  | lda
  /-- load X (R98). -/
  | ldx
  /-- load Y (R99). -/
  | ldy
  /-- store accumulator (R100). -/
  | sta
  /-- store X (R101). -/
  | stx
  /-- add with carry (R102). -/
  | adc
  /-- compare accumulator (R103). -/
  | cmp
  /-- compare Y (R104). -/
  | cpy
  /-- increment X (R107). -/
  | inx
  /-- increment Y (R108). -/
  | iny
  /-- decrement X (R109). -/
  | dex
  /-- jump absolute (R110). -/
  | jmp
  /-- jump to subroutine (R111). -/
  | jsr
  /-- return from subroutine (R112). -/
  | rts
  /-- branch if equal (R113). -/
  | beq
  /-- no operation (R114). -/
  | nop
deriving DecidableEq, Repr

/-- The eight formats, one for each addressing mode (R57). -/
inductive Mode where
  | implied
  | immediate
  | zeroPage
  | absolute
  | absoluteX
  | absoluteY
  | indirectIndexedY
  | relative
deriving DecidableEq, Repr

/-- An instruction: its mnemonic and addressing mode (the constructor) and its operand.
`imm`: the operand value (R58); `zp`: the zero-page address (R59); `addr`, `base`: the 16-bit address or
base (R60); `ptr`: the zero-page pointer address, `off`: the branch offset byte (R61). -/
inductive Instr where
  /-- 0x20: JSR, Absolute (R111). -/
  | jsr (addr : Word)
  /-- 0x4C: JMP, Absolute (R110). -/
  | jmp (addr : Word)
  /-- 0x60: RTS, Implied (R112). -/
  | rts
  /-- 0x65: ADC, Zero Page (R102). -/
  | adcZp (zp : Byte)
  /-- 0x69: ADC, Immediate (R102). -/
  | adcImm (imm : Byte)
  /-- 0x6D: ADC, Absolute (R102). -/
  | adcAbs (addr : Word)
  /-- 0x71: ADC, Indirect Indexed,Y (R102). -/
  | adcIndY (ptr : Byte)
  /-- 0x79: ADC, Absolute,Y (R102). -/
  | adcAbsY (base : Word)
  /-- 0x7D: ADC, Absolute,X (R102). -/
  | adcAbsX (base : Word)
  /-- 0x85: STA, Zero Page (R100). -/
  | staZp (zp : Byte)
  /-- 0x86: STX, Zero Page (R101). -/
  | stxZp (zp : Byte)
  /-- 0x8D: STA, Absolute (R100). -/
  | staAbs (addr : Word)
  /-- 0x8E: STX, Absolute (R101). -/
  | stxAbs (addr : Word)
  /-- 0x91: STA, Indirect Indexed,Y (R100). -/
  | staIndY (ptr : Byte)
  /-- 0x99: STA, Absolute,Y (R100). -/
  | staAbsY (base : Word)
  /-- 0x9D: STA, Absolute,X (R100). -/
  | staAbsX (base : Word)
  /-- 0xA0: LDY, Immediate (R99). -/
  | ldyImm (imm : Byte)
  /-- 0xA2: LDX, Immediate (R98). -/
  | ldxImm (imm : Byte)
  /-- 0xA4: LDY, Zero Page (R99). -/
  | ldyZp (zp : Byte)
  /-- 0xA5: LDA, Zero Page (R97). -/
  | ldaZp (zp : Byte)
  /-- 0xA6: LDX, Zero Page (R98). -/
  | ldxZp (zp : Byte)
  /-- 0xA9: LDA, Immediate (R97). -/
  | ldaImm (imm : Byte)
  /-- 0xAC: LDY, Absolute (R99). -/
  | ldyAbs (addr : Word)
  /-- 0xAD: LDA, Absolute (R97). -/
  | ldaAbs (addr : Word)
  /-- 0xAE: LDX, Absolute (R98). -/
  | ldxAbs (addr : Word)
  /-- 0xB1: LDA, Indirect Indexed,Y (R97). -/
  | ldaIndY (ptr : Byte)
  /-- 0xB9: LDA, Absolute,Y (R97). -/
  | ldaAbsY (base : Word)
  /-- 0xBC: LDY, Absolute,X (R99). -/
  | ldyAbsX (base : Word)
  /-- 0xBD: LDA, Absolute,X (R97). -/
  | ldaAbsX (base : Word)
  /-- 0xBE: LDX, Absolute,Y (R98). -/
  | ldxAbsY (base : Word)
  /-- 0xC0: CPY, Immediate (R104). -/
  | cpyImm (imm : Byte)
  /-- 0xC4: CPY, Zero Page (R104). -/
  | cpyZp (zp : Byte)
  /-- 0xC5: CMP, Zero Page (R103). -/
  | cmpZp (zp : Byte)
  /-- 0xC8: INY, Implied (R108). -/
  | iny
  /-- 0xC9: CMP, Immediate (R103). -/
  | cmpImm (imm : Byte)
  /-- 0xCA: DEX, Implied (R109). -/
  | dex
  /-- 0xCC: CPY, Absolute (R104). -/
  | cpyAbs (addr : Word)
  /-- 0xCD: CMP, Absolute (R103). -/
  | cmpAbs (addr : Word)
  /-- 0xD1: CMP, Indirect Indexed,Y (R103). -/
  | cmpIndY (ptr : Byte)
  /-- 0xD9: CMP, Absolute,Y (R103). -/
  | cmpAbsY (base : Word)
  /-- 0xDD: CMP, Absolute,X (R103). -/
  | cmpAbsX (base : Word)
  /-- 0xE8: INX, Implied (R107). -/
  | inx
  /-- 0xEA: NOP, Implied (R114). -/
  | nop
  /-- 0xF0: BEQ, Relative (R113). -/
  | beq (off : Byte)
deriving DecidableEq, Repr

end Sys2Proof
end

