-- ==== Sys2Proof/Machine/OpcodeTable.lean ====
section
/-! DEFINITION. OPCODE_TABLE (spec/00_scope.md R5, spec/30_encoding.md R62): the map from opcode bytes to instruction
descriptors, as data, and the table that the spec gives it. -/

namespace Sys2Proof

/-- A row of the instruction table: an opcode byte and its descriptor's mnemonic and addressing mode (R12, R62). The
descriptor's handler is the mnemonic's meaning, and its base cost is BASE_CYCLES's. -/
structure OpcodeRow where
  opcode : Byte
  mnemonic : Mnemonic
  mode : Mode
deriving DecidableEq, Repr

/-- "The static map from opcode byte to descriptor; a partial function over 0–255" (R12). -/
abbrev OpcodeTable := List OpcodeRow

/-- An instruction of a mnemonic and mode, up to its operand bytes. -/
inductive InstrForm where
  /-- No operand byte. -/
  | noOperand (i : Instr)
  /-- One operand byte. -/
  | byteOperand (mk : Byte → Instr)
  /-- A 16-bit operand, low byte first. -/
  | wordOperand (mk : Word → Instr)

/-- The instruction of a mnemonic and mode: the 44 pairs of R62's table, and no other (assumption log 1). -/
def instrForm : Mnemonic → Mode → Option InstrForm
  | .jsr, .absolute => some (.wordOperand .jsr)
  | .jmp, .absolute => some (.wordOperand .jmp)
  | .rts, .implied => some (.noOperand .rts)
  | .adc, .zeroPage => some (.byteOperand .adcZp)
  | .adc, .immediate => some (.byteOperand .adcImm)
  | .adc, .absolute => some (.wordOperand .adcAbs)
  | .adc, .indirectIndexedY => some (.byteOperand .adcIndY)
  | .adc, .absoluteY => some (.wordOperand .adcAbsY)
  | .adc, .absoluteX => some (.wordOperand .adcAbsX)
  | .sta, .zeroPage => some (.byteOperand .staZp)
  | .stx, .zeroPage => some (.byteOperand .stxZp)
  | .sta, .absolute => some (.wordOperand .staAbs)
  | .stx, .absolute => some (.wordOperand .stxAbs)
  | .sta, .indirectIndexedY => some (.byteOperand .staIndY)
  | .sta, .absoluteY => some (.wordOperand .staAbsY)
  | .sta, .absoluteX => some (.wordOperand .staAbsX)
  | .ldy, .immediate => some (.byteOperand .ldyImm)
  | .ldx, .immediate => some (.byteOperand .ldxImm)
  | .ldy, .zeroPage => some (.byteOperand .ldyZp)
  | .lda, .zeroPage => some (.byteOperand .ldaZp)
  | .ldx, .zeroPage => some (.byteOperand .ldxZp)
  | .lda, .immediate => some (.byteOperand .ldaImm)
  | .ldy, .absolute => some (.wordOperand .ldyAbs)
  | .lda, .absolute => some (.wordOperand .ldaAbs)
  | .ldx, .absolute => some (.wordOperand .ldxAbs)
  | .lda, .indirectIndexedY => some (.byteOperand .ldaIndY)
  | .lda, .absoluteY => some (.wordOperand .ldaAbsY)
  | .ldy, .absoluteX => some (.wordOperand .ldyAbsX)
  | .lda, .absoluteX => some (.wordOperand .ldaAbsX)
  | .ldx, .absoluteY => some (.wordOperand .ldxAbsY)
  | .cpy, .immediate => some (.byteOperand .cpyImm)
  | .cpy, .zeroPage => some (.byteOperand .cpyZp)
  | .cmp, .zeroPage => some (.byteOperand .cmpZp)
  | .iny, .implied => some (.noOperand .iny)
  | .cmp, .immediate => some (.byteOperand .cmpImm)
  | .dex, .implied => some (.noOperand .dex)
  | .cpy, .absolute => some (.wordOperand .cpyAbs)
  | .cmp, .absolute => some (.wordOperand .cmpAbs)
  | .cmp, .indirectIndexedY => some (.byteOperand .cmpIndY)
  | .cmp, .absoluteY => some (.wordOperand .cmpAbsY)
  | .cmp, .absoluteX => some (.wordOperand .cmpAbsX)
  | .inx, .implied => some (.noOperand .inx)
  | .nop, .implied => some (.noOperand .nop)
  | .beq, .relative => some (.byteOperand .beq)
  | _, _ => none

/-- The instruction form that a table gives an opcode byte, `none` for a byte with no descriptor. -/
def OpcodeTable.form : OpcodeTable → Byte → Option InstrForm
  | [], _ => none
  | r :: t, op => if r.opcode = op then instrForm r.mnemonic r.mode else OpcodeTable.form t op

/-- The 44 rows of R62, OPCODE_TABLE's default. -/
def OpcodeTable.r62 : OpcodeTable :=
  [⟨0x20, .jsr, .absolute⟩,
    ⟨0x4C, .jmp, .absolute⟩,
    ⟨0x60, .rts, .implied⟩,
    ⟨0x65, .adc, .zeroPage⟩,
    ⟨0x69, .adc, .immediate⟩,
    ⟨0x6D, .adc, .absolute⟩,
    ⟨0x71, .adc, .indirectIndexedY⟩,
    ⟨0x79, .adc, .absoluteY⟩,
    ⟨0x7D, .adc, .absoluteX⟩,
    ⟨0x85, .sta, .zeroPage⟩,
    ⟨0x86, .stx, .zeroPage⟩] ++
  [⟨0x8D, .sta, .absolute⟩,
    ⟨0x8E, .stx, .absolute⟩,
    ⟨0x91, .sta, .indirectIndexedY⟩,
    ⟨0x99, .sta, .absoluteY⟩,
    ⟨0x9D, .sta, .absoluteX⟩,
    ⟨0xA0, .ldy, .immediate⟩,
    ⟨0xA2, .ldx, .immediate⟩,
    ⟨0xA4, .ldy, .zeroPage⟩,
    ⟨0xA5, .lda, .zeroPage⟩,
    ⟨0xA6, .ldx, .zeroPage⟩,
    ⟨0xA9, .lda, .immediate⟩] ++
  [⟨0xAC, .ldy, .absolute⟩,
    ⟨0xAD, .lda, .absolute⟩,
    ⟨0xAE, .ldx, .absolute⟩,
    ⟨0xB1, .lda, .indirectIndexedY⟩,
    ⟨0xB9, .lda, .absoluteY⟩,
    ⟨0xBC, .ldy, .absoluteX⟩,
    ⟨0xBD, .lda, .absoluteX⟩,
    ⟨0xBE, .ldx, .absoluteY⟩,
    ⟨0xC0, .cpy, .immediate⟩,
    ⟨0xC4, .cpy, .zeroPage⟩,
    ⟨0xC5, .cmp, .zeroPage⟩] ++
  [⟨0xC8, .iny, .implied⟩,
    ⟨0xC9, .cmp, .immediate⟩,
    ⟨0xCA, .dex, .implied⟩,
    ⟨0xCC, .cpy, .absolute⟩,
    ⟨0xCD, .cmp, .absolute⟩,
    ⟨0xD1, .cmp, .indirectIndexedY⟩,
    ⟨0xD9, .cmp, .absoluteY⟩,
    ⟨0xDD, .cmp, .absoluteX⟩,
    ⟨0xE8, .inx, .implied⟩,
    ⟨0xEA, .nop, .implied⟩,
    ⟨0xF0, .beq, .relative⟩]

end Sys2Proof
end

