-- ==== Sys2Proof/Config.lean ====
section
/-! DEFINITION. The implementation parameters of spec/00_scope.md R5, as plain data.

The spec leaves some of them OPEN ("the model takes them as an argument") and gives others a default.
They are gathered in `Platform`, which the state carries and no step changes, so that a statement about
every state is a statement about every choice of the parameters. `Config.platform` is the choice that
`State.reset` starts from (assumption log 1 to 6). -/

namespace Sys2Proof

/-- UNLISTED_OPCODE_POLICY (R5, R64): what executing a byte of the refused tier means. -/
inductive UnlistedOpcodePolicy where
  /-- The default: the model gives the byte no meaning. -/
  | refuseDocumented
  /-- The byte halts the core as a halt-tier byte does. -/
  | haltAll
deriving DecidableEq, Repr

/-- ROM_WRITE_POLICY (R5, R37): what a store into the font ROM region does. -/
inductive RomWritePolicy where
  /-- The default: the store has no effect. -/
  | ignore
  /-- The store writes the byte. -/
  | write
deriving DecidableEq, Repr

/-- The implementation parameters (R5). FONT_SIZE is the length of FONT_DATA. -/
structure Platform where
  /-- OPCODE_TABLE (R62; assumption log 1). -/
  opcodeTable : OpcodeTable
  /-- FONT_BASE. -/
  fontBase : Nat
  /-- FONT_DATA, a byte sequence of length FONT_SIZE. -/
  fontData : List Byte
  /-- VIDEO_BASE; informative, no rule of the core reads it (R41). -/
  videoBase : Nat
  /-- VIDEO_SIZE; informative, no rule of the core reads it (R41). -/
  videoSize : Nat
  /-- ROM_WRITE_POLICY. -/
  romWritePolicy : RomWritePolicy
  /-- UNLISTED_OPCODE_POLICY. -/
  unlistedOpcodePolicy : UnlistedOpcodePolicy
  /-- BASE_CYCLES, as the list of the opcodes whose base cost is not R142's default, each with its cost. -/
  baseCycleOverrides : List (Byte × Nat)
deriving DecidableEq, Repr

/-- The parameters `State.reset` starts from: R62's table, the spec's defaults for both policies and for BASE_CYCLES,
and an empty font ROM and video range, since the spec gives neither a place nor data for them.
DESIGN CHOICE, unsafe (assumption log 4, 5). -/
def Config.platform : Platform where
  opcodeTable := OpcodeTable.r62
  fontBase := 0
  fontData := []
  videoBase := 0
  videoSize := 0
  romWritePolicy := .ignore
  unlistedOpcodePolicy := .refuseDocumented
  baseCycleOverrides := []

end Sys2Proof
end

