-- ==== Sys2Proof/WellFormed.lean ====
section
/-! DEFINITION. Well-formedness.

Of an instruction: "Operand bytes are never checked: every value of an operand byte is legal" and "There are no
unused bits inside an admitted encoding" (spec/30_encoding.md R65), and an operand field's type already has
exactly the width of its bytes, so no term of `Instr` is ill-formed and there is nothing to check.

Of the parameters: the instruction table is a partial function to instructions (R12), and the font ROM region and the video range lie in the 65536-byte memory (R5, R41). -/

namespace Sys2Proof

/-- FONT_BASE + FONT_SIZE ≤ 65536 (R5), with FONT_SIZE the length of FONT_DATA. -/
abbrev Platform.fontFits (p : Platform) : Prop := p.fontBase + p.fontData.length ≤ 65536

/-- The video memory is a part of the memory (R41). DEDUCED (assumption log 5). -/
abbrev Platform.videoFits (p : Platform) : Prop := p.videoBase + p.videoSize ≤ 65536

/-- The table is a partial function, and each descriptor is of a mnemonic and mode that has an instruction (R12, R62). -/
abbrev OpcodeTable.WellFormed (t : OpcodeTable) : Prop :=
  (t.map OpcodeRow.opcode).Nodup ∧ ∀ r ∈ t, (instrForm r.mnemonic r.mode).isSome = true

/-- The parameters are ones the spec allows. -/
abbrev Platform.WellFormed (p : Platform) : Prop :=
  p.fontFits ∧ p.videoFits ∧ p.opcodeTable.WellFormed

/-- Every instruction is well-formed (R65): the constructors are listed, each with its operand unrestricted. -/
def Instr.wellFormed : Instr → Bool
  | .jsr _ => true
  | .jmp _ => true
  | .rts => true
  | .adcZp _ => true
  | .adcImm _ => true
  | .adcAbs _ => true
  | .adcIndY _ => true
  | .adcAbsY _ => true
  | .adcAbsX _ => true
  | .staZp _ => true
  | .stxZp _ => true
  | .staAbs _ => true
  | .stxAbs _ => true
  | .staIndY _ => true
  | .staAbsY _ => true
  | .staAbsX _ => true
  | .ldyImm _ => true
  | .ldxImm _ => true
  | .ldyZp _ => true
  | .ldaZp _ => true
  | .ldxZp _ => true
  | .ldaImm _ => true
  | .ldyAbs _ => true
  | .ldaAbs _ => true
  | .ldxAbs _ => true
  | .ldaIndY _ => true
  | .ldaAbsY _ => true
  | .ldyAbsX _ => true
  | .ldaAbsX _ => true
  | .ldxAbsY _ => true
  | .cpyImm _ => true
  | .cpyZp _ => true
  | .cmpZp _ => true
  | .iny => true
  | .cmpImm _ => true
  | .dex => true
  | .cpyAbs _ => true
  | .cmpAbs _ => true
  | .cmpIndY _ => true
  | .cmpAbsY _ => true
  | .cmpAbsX _ => true
  | .inx => true
  | .nop => true
  | .beq _ => true

end Sys2Proof
end

