-- ==== Sys2Proof/Decode.lean ====
section
/-! DEFINITION. Decoding and encoding (spec/30_encoding.md).

The opcode byte alone selects the instruction and its addressing mode, and the mode alone fixes the length
(R56), so decoding is in two parts: `opcodeClass` looks the opcode byte up, and the operand bytes, whatever
they are (R65), complete the instruction. -/

namespace Sys2Proof

/-- What the opcode byte alone decides (R66): an admitted instruction up to its operand bytes, `UnknownOpcode`, or
refused. -/
inductive OpcodeClass where
  /-- A byte with a descriptor. -/
  | admitted (f : InstrForm)
  /-- The halt tier (R63). -/
  | unknownOpcode
  /-- The refused tier (R64). -/
  | refusedTier

/-- The 107 bytes of the refused tier (R64). -/
def refusedTierBytes : List Byte :=
  [0x00, 0x01, 0x05, 0x06, 0x08, 0x09, 0x0A, 0x0D, 0x0E, 0x10, 0x11, 0x15] ++
  [0x16, 0x18, 0x19, 0x1D, 0x1E, 0x21, 0x24, 0x25, 0x26, 0x28, 0x29, 0x2A] ++
  [0x2C, 0x2D, 0x2E, 0x30, 0x31, 0x35, 0x36, 0x38, 0x39, 0x3D, 0x3E, 0x40] ++
  [0x41, 0x45, 0x46, 0x48, 0x49, 0x4A, 0x4D, 0x4E, 0x50, 0x51, 0x55, 0x56] ++
  [0x58, 0x59, 0x5D, 0x5E, 0x61, 0x66, 0x68, 0x6A, 0x6C, 0x6E, 0x70, 0x75] ++
  [0x76, 0x78, 0x7E, 0x81, 0x84, 0x88, 0x8A, 0x8C, 0x90, 0x94, 0x95, 0x96] ++
  [0x98, 0x9A, 0xA1, 0xA8, 0xAA, 0xB0, 0xB4, 0xB5, 0xB6, 0xB8, 0xBA, 0xC1] ++
  [0xC6, 0xCE, 0xD0, 0xD5, 0xD6, 0xD8, 0xDE, 0xE0, 0xE1, 0xE4, 0xE5, 0xE6] ++
  [0xE9, 0xEC, 0xED, 0xEE, 0xF1, 0xF5, 0xF6, 0xF8, 0xF9, 0xFD, 0xFE]

/-- The 105 bytes of the halt tier (R63). -/
def haltTierBytes : List Byte :=
  [0x02, 0x03, 0x04, 0x07, 0x0B, 0x0C, 0x0F, 0x12, 0x13, 0x14, 0x17, 0x1A] ++
  [0x1B, 0x1C, 0x1F, 0x22, 0x23, 0x27, 0x2B, 0x2F, 0x32, 0x33, 0x34, 0x37] ++
  [0x3A, 0x3B, 0x3C, 0x3F, 0x42, 0x43, 0x44, 0x47, 0x4B, 0x4F, 0x52, 0x53] ++
  [0x54, 0x57, 0x5A, 0x5B, 0x5C, 0x5F, 0x62, 0x63, 0x64, 0x67, 0x6B, 0x6F] ++
  [0x72, 0x73, 0x74, 0x77, 0x7A, 0x7B, 0x7C, 0x7F, 0x80, 0x82, 0x83, 0x87] ++
  [0x89, 0x8B, 0x8F, 0x92, 0x93, 0x97, 0x9B, 0x9C, 0x9E, 0x9F, 0xA3, 0xA7] ++
  [0xAB, 0xAF, 0xB2, 0xB3, 0xB7, 0xBB, 0xBF, 0xC2, 0xC3, 0xC7, 0xCB, 0xCF] ++
  [0xD2, 0xD3, 0xD4, 0xD7, 0xDA, 0xDB, 0xDC, 0xDF, 0xE2, 0xE3, 0xE7, 0xEB] ++
  [0xEF, 0xF2, 0xF3, 0xF4, 0xF7, 0xFA, 0xFB, 0xFC, 0xFF]

/-- The lookup of an opcode byte (R62 to R66), total on bytes. A byte with no descriptor in the table is of the halt
tier if R63 lists it, as no documented opcode, and else of the refused tier; for R62's table those are R64's 107 bytes
(`Tests.test_refused_tier_is_R64`), and for another table this is D5's reading (assumption log 2). -/
def opcodeClass (t : OpcodeTable) (op : Byte) : OpcodeClass :=
  match t.form op with
  | some f => .admitted f
  | none => if haltTierBytes.contains op then .unknownOpcode else .refusedTier

/-- What a byte sequence begins with. -/
inductive Decoded where
  /-- An admitted instruction, and the bytes after it. -/
  | instr (i : Instr) (rest : List Byte)
  /-- A halt-tier opcode byte (R63). -/
  | unknownOpcode
  /-- A refused opcode byte (R64). -/
  | refusedTier (op : Byte)
  /-- The sequence ends inside an instruction. -/
  | truncated
deriving DecidableEq, Repr

/-- An instruction form completed by the operand bytes that follow the opcode (R57, R60). -/
def InstrForm.complete : InstrForm → List Byte → Decoded
  | .noOperand i, rest => .instr i rest
  | .byteOperand mk, b :: rest => .instr (mk b) rest
  | .wordOperand mk, lo :: hi :: rest => .instr (mk (wordOf hi lo)) rest
  | .byteOperand _, [] => .truncated
  | .wordOperand _, [] => .truncated
  | .wordOperand _, [_] => .truncated

/-- The decoder for an instruction table (R56, R57, R60, R66), total on byte sequences. -/
def decode (t : OpcodeTable) : List Byte → Decoded
  | [] => .truncated
  | op :: bytes =>
    match opcodeClass t op with
    | .admitted f => f.complete bytes
    | .unknownOpcode => .unknownOpcode
    | .refusedTier => .refusedTier op

/-- An instruction's mnemonic (R62). -/
def Instr.mnemonic : Instr → Mnemonic
  | .jsr _ => .jsr
  | .jmp _ => .jmp
  | .rts => .rts
  | .adcZp _ => .adc
  | .adcImm _ => .adc
  | .adcAbs _ => .adc
  | .adcIndY _ => .adc
  | .adcAbsY _ => .adc
  | .adcAbsX _ => .adc
  | .staZp _ => .sta
  | .stxZp _ => .stx
  | .staAbs _ => .sta
  | .stxAbs _ => .stx
  | .staIndY _ => .sta
  | .staAbsY _ => .sta
  | .staAbsX _ => .sta
  | .ldyImm _ => .ldy
  | .ldxImm _ => .ldx
  | .ldyZp _ => .ldy
  | .ldaZp _ => .lda
  | .ldxZp _ => .ldx
  | .ldaImm _ => .lda
  | .ldyAbs _ => .ldy
  | .ldaAbs _ => .lda
  | .ldxAbs _ => .ldx
  | .ldaIndY _ => .lda
  | .ldaAbsY _ => .lda
  | .ldyAbsX _ => .ldy
  | .ldaAbsX _ => .lda
  | .ldxAbsY _ => .ldx
  | .cpyImm _ => .cpy
  | .cpyZp _ => .cpy
  | .cmpZp _ => .cmp
  | .iny => .iny
  | .cmpImm _ => .cmp
  | .dex => .dex
  | .cpyAbs _ => .cpy
  | .cmpAbs _ => .cmp
  | .cmpIndY _ => .cmp
  | .cmpAbsY _ => .cmp
  | .cmpAbsX _ => .cmp
  | .inx => .inx
  | .nop => .nop
  | .beq _ => .beq

/-- An instruction's addressing mode (R62). -/
def Instr.mode : Instr → Mode
  | .jsr _ => .absolute
  | .jmp _ => .absolute
  | .rts => .implied
  | .adcZp _ => .zeroPage
  | .adcImm _ => .immediate
  | .adcAbs _ => .absolute
  | .adcIndY _ => .indirectIndexedY
  | .adcAbsY _ => .absoluteY
  | .adcAbsX _ => .absoluteX
  | .staZp _ => .zeroPage
  | .stxZp _ => .zeroPage
  | .staAbs _ => .absolute
  | .stxAbs _ => .absolute
  | .staIndY _ => .indirectIndexedY
  | .staAbsY _ => .absoluteY
  | .staAbsX _ => .absoluteX
  | .ldyImm _ => .immediate
  | .ldxImm _ => .immediate
  | .ldyZp _ => .zeroPage
  | .ldaZp _ => .zeroPage
  | .ldxZp _ => .zeroPage
  | .ldaImm _ => .immediate
  | .ldyAbs _ => .absolute
  | .ldaAbs _ => .absolute
  | .ldxAbs _ => .absolute
  | .ldaIndY _ => .indirectIndexedY
  | .ldaAbsY _ => .absoluteY
  | .ldyAbsX _ => .absoluteX
  | .ldaAbsX _ => .absoluteX
  | .ldxAbsY _ => .absoluteY
  | .cpyImm _ => .immediate
  | .cpyZp _ => .zeroPage
  | .cmpZp _ => .zeroPage
  | .iny => .implied
  | .cmpImm _ => .immediate
  | .dex => .implied
  | .cpyAbs _ => .absolute
  | .cmpAbs _ => .absolute
  | .cmpIndY _ => .indirectIndexedY
  | .cmpAbsY _ => .absoluteY
  | .cmpAbsX _ => .absoluteX
  | .inx => .implied
  | .nop => .implied
  | .beq _ => .relative

/-- The length in bytes that a mode fixes (R57). -/
def Mode.length : Mode → Nat
  | .implied => 1
  | .immediate => 2
  | .zeroPage => 2
  | .absolute => 3
  | .absoluteX => 3
  | .absoluteY => 3
  | .indirectIndexedY => 2
  | .relative => 2

/-- An instruction's length in bytes (R56, R57). -/
def Instr.length (i : Instr) : Nat := i.mode.length

/-- An instruction's opcode byte in R62's table. -/
def Instr.opcode : Instr → Byte
  | .jsr _ => 0x20
  | .jmp _ => 0x4C
  | .rts => 0x60
  | .adcZp _ => 0x65
  | .adcImm _ => 0x69
  | .adcAbs _ => 0x6D
  | .adcIndY _ => 0x71
  | .adcAbsY _ => 0x79
  | .adcAbsX _ => 0x7D
  | .staZp _ => 0x85
  | .stxZp _ => 0x86
  | .staAbs _ => 0x8D
  | .stxAbs _ => 0x8E
  | .staIndY _ => 0x91
  | .staAbsY _ => 0x99
  | .staAbsX _ => 0x9D
  | .ldyImm _ => 0xA0
  | .ldxImm _ => 0xA2
  | .ldyZp _ => 0xA4
  | .ldaZp _ => 0xA5
  | .ldxZp _ => 0xA6
  | .ldaImm _ => 0xA9
  | .ldyAbs _ => 0xAC
  | .ldaAbs _ => 0xAD
  | .ldxAbs _ => 0xAE
  | .ldaIndY _ => 0xB1
  | .ldaAbsY _ => 0xB9
  | .ldyAbsX _ => 0xBC
  | .ldaAbsX _ => 0xBD
  | .ldxAbsY _ => 0xBE
  | .cpyImm _ => 0xC0
  | .cpyZp _ => 0xC4
  | .cmpZp _ => 0xC5
  | .iny => 0xC8
  | .cmpImm _ => 0xC9
  | .dex => 0xCA
  | .cpyAbs _ => 0xCC
  | .cmpAbs _ => 0xCD
  | .cmpIndY _ => 0xD1
  | .cmpAbsY _ => 0xD9
  | .cmpAbsX _ => 0xDD
  | .inx => 0xE8
  | .nop => 0xEA
  | .beq _ => 0xF0

/-- The operand bytes in memory order, a 16-bit operand low byte first (R57, R60). -/
def Instr.operandBytes : Instr → List Byte
  | .jsr v => [loByte v, hiByte v]
  | .jmp v => [loByte v, hiByte v]
  | .rts => []
  | .adcZp v => [v]
  | .adcImm v => [v]
  | .adcAbs v => [loByte v, hiByte v]
  | .adcIndY v => [v]
  | .adcAbsY v => [loByte v, hiByte v]
  | .adcAbsX v => [loByte v, hiByte v]
  | .staZp v => [v]
  | .stxZp v => [v]
  | .staAbs v => [loByte v, hiByte v]
  | .stxAbs v => [loByte v, hiByte v]
  | .staIndY v => [v]
  | .staAbsY v => [loByte v, hiByte v]
  | .staAbsX v => [loByte v, hiByte v]
  | .ldyImm v => [v]
  | .ldxImm v => [v]
  | .ldyZp v => [v]
  | .ldaZp v => [v]
  | .ldxZp v => [v]
  | .ldaImm v => [v]
  | .ldyAbs v => [loByte v, hiByte v]
  | .ldaAbs v => [loByte v, hiByte v]
  | .ldxAbs v => [loByte v, hiByte v]
  | .ldaIndY v => [v]
  | .ldaAbsY v => [loByte v, hiByte v]
  | .ldyAbsX v => [loByte v, hiByte v]
  | .ldaAbsX v => [loByte v, hiByte v]
  | .ldxAbsY v => [loByte v, hiByte v]
  | .cpyImm v => [v]
  | .cpyZp v => [v]
  | .cmpZp v => [v]
  | .iny => []
  | .cmpImm v => [v]
  | .dex => []
  | .cpyAbs v => [loByte v, hiByte v]
  | .cmpAbs v => [loByte v, hiByte v]
  | .cmpIndY v => [v]
  | .cmpAbsY v => [loByte v, hiByte v]
  | .cmpAbsX v => [loByte v, hiByte v]
  | .inx => []
  | .nop => []
  | .beq v => [v]

/-- The encoder: the bytes of an instruction in memory order, with R62's opcode byte (R56, R57, R62). -/
def encode (i : Instr) : List Byte := i.opcode :: i.operandBytes

/-- The length of the longest instruction (R57). -/
def maxInstrLength : Nat := 3

/-- The bytes of an instruction whose bits are `w`, numbered as spec/opcode_table.json numbers them (byte 0, the
opcode, in bits 7..0; the next byte in bits 15..8), in memory order, with zeros from bit `nbits` up. -/
def tableWordBytes (nbits w : Nat) : List Byte :=
  (List.range maxInstrLength).map (byteAt (w % 2 ^ nbits))

/-- The instruction the decoder reads from an instruction whose bits are `w` (`tableWordBytes`), with R62's table. -/
def decodeTableWord (nbits w : Nat) : Option Instr :=
  match decode OpcodeTable.r62 (tableWordBytes nbits w) with
  | .instr i _ => some i
  | .unknownOpcode => none
  | .refusedTier _ => none
  | .truncated => none

end Sys2Proof
end

