-- ==== Sys2Proof/Machine/Cycles.lean ====
section
/-! DEFINITION. BASE_CYCLES (spec/70_reset_and_hazards.md R142): the default table, which the spec supplies from
general knowledge, and the platform's own costs over it (assumption log 6). -/

namespace Sys2Proof

/-- The default base cost of each row (R142). -/
def Instr.defaultCycles : Instr → Nat
  | .jsr _ => 6
  | .jmp _ => 3
  | .rts => 6
  | .adcZp _ => 3
  | .adcImm _ => 2
  | .adcAbs _ => 4
  | .adcIndY _ => 5
  | .adcAbsY _ => 4
  | .adcAbsX _ => 4
  | .staZp _ => 3
  | .stxZp _ => 3
  | .staAbs _ => 4
  | .stxAbs _ => 4
  | .staIndY _ => 6
  | .staAbsY _ => 5
  | .staAbsX _ => 5
  | .ldyImm _ => 2
  | .ldxImm _ => 2
  | .ldyZp _ => 3
  | .ldaZp _ => 3
  | .ldxZp _ => 3
  | .ldaImm _ => 2
  | .ldyAbs _ => 4
  | .ldaAbs _ => 4
  | .ldxAbs _ => 4
  | .ldaIndY _ => 5
  | .ldaAbsY _ => 4
  | .ldyAbsX _ => 4
  | .ldaAbsX _ => 4
  | .ldxAbsY _ => 4
  | .cpyImm _ => 2
  | .cpyZp _ => 3
  | .cmpZp _ => 3
  | .iny => 2
  | .cmpImm _ => 2
  | .dex => 2
  | .cpyAbs _ => 4
  | .cmpAbs _ => 4
  | .cmpIndY _ => 5
  | .cmpAbsY _ => 4
  | .cmpAbsX _ => 4
  | .inx => 2
  | .nop => 2
  | .beq _ => 2

/-- The platform's own base cost of an opcode, if it lists one. -/
def lookupCycles (op : Byte) : List (Byte × Nat) → Option Nat
  | [] => none
  | (k, n) :: rest => if k = op then some n else lookupCycles op rest

/-- BASE_CYCLES(op) for the opcode byte `op` of `i`: the platform's own cost of the byte, or the cost of `i`'s row in R142
(R5, R142, R143). -/
def Platform.baseCycles (p : Platform) (op : Byte) (i : Instr) : Nat :=
  (lookupCycles op p.baseCycleOverrides).getD i.defaultCycles

end Sys2Proof
end

