-- ==== Sys2Proof/Machine/Memory.lean ====
section
/-! DEFINITION. The flat memory of 65536 bytes (spec/20_memory.md R35), as a list of (address, byte) pairs in
one canonical form, and the font ROM region's bounds (R40).

Canonical form: addresses strictly rising and below 65536, and no entry equal to what an unlisted address
reads as. An unlisted address reads 0x00, what `Memory.reset()` leaves everywhere (R39). -/

namespace Sys2Proof.Machine

/-- The memory: the bytes that differ from 0x00, by rising address. -/
abbrev Memory := List Host.Cell

/-- What an unlisted address reads as: "reset zero-fills" (R39). -/
abbrev Memory.unlisted : Byte := 0x00

/-- The byte stored at an address (R36). -/
def Memory.read : Memory → Nat → Byte
  | [], _ => Memory.unlisted
  | (k, v) :: m, a => if k = a then v else Memory.read m a

/-- The memory without any entry for address `a`. -/
def Memory.erase : Memory → Nat → Memory
  | [], _ => []
  | (k, v) :: m, a => if k = a then Memory.erase m a else (k, v) :: Memory.erase m a

/-- The entry `(a, v)` put in its place by address. -/
def Memory.insert : Memory → Nat → Byte → Memory
  | [], a, v => [(a, v)]
  | (k, w) :: m, a, v => if k < a then (k, w) :: Memory.insert m a v else (a, v) :: (k, w) :: m

/-- The memory with byte `v` at address `a` (R37's `mem[addr] <- v`); keeps the canonical form. -/
def Memory.write (m : Memory) (a : Nat) (v : Byte) : Memory :=
  if v = Memory.unlisted then m.erase a else (m.erase a).insert a v

/-- Consecutive bytes written in rising order from address `a`, with no wrap (R55, R132). -/
def Memory.load : Memory → Nat → List Byte → Memory
  | m, _, [] => m
  | m, a, b :: bs => Memory.load (m.write a b) (a + 1) bs

/-- The canonical form, for addresses from `lo` up. -/
def Memory.wfFrom : Nat → Memory → Bool
  | _, [] => true
  | lo, (k, v) :: m =>
    decide (lo ≤ k) && decide (k < 65536) && (v != Memory.unlisted) && Memory.wfFrom (k + 1) m

/-- The canonical form of a memory. -/
def Memory.wf (m : Memory) : Bool := Memory.wfFrom 0 m

end Sys2Proof.Machine

namespace Sys2Proof

/-- FONT_SIZE (R5). -/
abbrev Platform.fontSize (p : Platform) : Nat := p.fontData.length

/-- Address `a` lies in the font ROM region [FONT_BASE, FONT_BASE + FONT_SIZE) (R40). -/
def Platform.inFont (p : Platform) (a : Nat) : Bool :=
  decide (p.fontBase ≤ a) && decide (a < p.fontBase + p.fontSize)

/-- A store to address `a` has no effect (R37's first branch). -/
def Platform.dropsWrite (p : Platform) (a : Nat) : Bool :=
  decide (p.romWritePolicy = .ignore) && p.inFont a

/-- [a, a+n) intersects the font ROM region: some address lies in both (R55). -/
def Platform.overlapsFont (p : Platform) (a n : Nat) : Bool :=
  decide (0 < n) && decide (0 < p.fontSize) && decide (a < p.fontBase + p.fontSize) && decide (p.fontBase < a + n)

/-- The memory that reset leaves: every byte 0x00, then FONT_DATA in the font ROM region, whatever
ROM_WRITE_POLICY is (R132). -/
def Platform.resetMemory (p : Platform) : Machine.Memory :=
  Machine.Memory.load [] p.fontBase p.fontData

end Sys2Proof
end

