-- ==== Sys2Proof/Machine/State.lean ====
section
/-! DEFINITION. The state of the machine: everything spec/10_state.md and spec/20_memory.md give it, as plain
data, the state after reset, and the reasons a step can stop. -/

namespace Sys2Proof.Machine

/-- Why the core halted: "The only halt reason is `UnknownOpcode`" (R29), and the record is the reason alone (R118). -/
inductive HaltReason where
  | unknownOpcode
deriving DecidableEq, Repr

/-- The run state (R29). -/
inductive RunState where
  | idle
  | running
  | halted (reason : HaltReason)
deriving DecidableEq, Repr

/-- The status byte P as its flags (R19): bits 7, 6, 4, 3, 2, 1 and 0. Bit 5 is no field: it is the constant 1
of `Status.toByte` ("A model may implement bit 5 as a constant 1", R20; assumption log 10). -/
structure Status where
  /-- Negative, bit 7 (R23). -/
  n : Bool
  /-- Overflow, bit 6 (R24). -/
  v : Bool
  /-- Break, bit 4 (R25). -/
  b : Bool
  /-- Decimal mode, bit 3 (R26). -/
  d : Bool
  /-- Interrupt disable, bit 2 (R27). -/
  i : Bool
  /-- Zero, bit 1 (R22). -/
  z : Bool
  /-- Carry, bit 0 (R21). -/
  c : Bool
deriving DecidableEq, Repr

/-- The state of the block. -/
structure State where
  /-- The accumulator (R14). -/
  a : Byte
  /-- Index register X (R15). -/
  x : Byte
  /-- Index register Y (R16). -/
  y : Byte
  /-- The stack pointer; the stack is in page 1 (R17). -/
  sp : Byte
  /-- The status byte (R19). -/
  p : Status
  /-- The program counter (R18). -/
  pc : Word
  /-- The 65536 bytes of memory (R35). -/
  mem : Memory
  /-- The run state (R29). -/
  runState : RunState
  /-- The cycle bookkeeping counter, with no upper bound (R30). -/
  cycles : Nat
  /-- The implementation parameters (R5), which no step and no command changes. -/
  platform : Platform
deriving DecidableEq, Repr

/-- A fault would be an instruction's own stop. This hardware has none: "an admitted instruction completes with no
event" (R120), "No access faults" (R48), and the UnknownOpcode halt is a run state (R117). So nothing raises
one, and the type is empty (assumption log 16). -/
inductive Fault where
deriving DecidableEq, Repr

/-- Why the model gives a step no meaning. -/
inductive Refusal where
  /-- Raised by `exec`'s arm of an instruction that has no meaning yet. Safe: the run has no next state. -/
  | notModelled (mnemonic : String)
  /-- Raised by `step` on an opcode byte of the refused tier under UNLISTED_OPCODE_POLICY = refuse-documented:
  "executing one is `refuse(op)`, a model outcome that is neither a run of the hardware nor a halt" (R64).
  Safe: the run has no next state. -/
  | refusedOpcode (op : Byte)
deriving DecidableEq, Repr

/-- The block's state after `reset()` with the parameters `p` (R132, R133). -/
def State.resetWith (p : Platform) : State where
  a := 0x00
  x := 0x00
  y := 0x00
  sp := 0xFF
  p := { n := false, v := false, b := false, d := false, i := true, z := false, c := false }
  pc := 0x0000
  mem := p.resetMemory
  runState := .idle
  cycles := 0
  platform := p

/-- The machine right after reset (R133), with the parameters of `Config.platform` (assumption log 4, 5). -/
def State.reset : State := State.resetWith Config.platform

end Sys2Proof.Machine
end

