-- ==== Sys2Proof/Machine/Flags.lean ====
section
/-! DEFINITION. The status byte's view as a byte, and every flag computation of the spec, each said once. -/

namespace Sys2Proof.Machine

/-- P as a byte, "bits N V – B D I Z C" most significant first, bit 5 the constant 1 (R19, R20). -/
def Status.toByte (p : Status) : Byte :=
  BitVec.ofBool p.n ++ BitVec.ofBool p.v ++ 1#1 ++ BitVec.ofBool p.b ++ BitVec.ofBool p.d ++
    BitVec.ofBool p.i ++ BitVec.ofBool p.z ++ BitVec.ofBool p.c

/-- `b2n(f)`: 1 if the flag is set, else 0 (42_add_compare.md). -/
def b2n (f : Bool) : Nat := if f then 1 else 0

/-- `r == 0` (R11). -/
def zeroFlag (r : Byte) : Bool := decide (r = 0)

/-- `r[7] == 1` (R11). -/
def negativeFlag (r : Byte) : Bool := r.getLsbD 7

/-- `SetZN(r)`: Z and N together, from the same result; the other flags keep their values (R11, R28). -/
def Status.setZN (p : Status) (r : Byte) : Status := { p with z := zeroFlag r, n := negativeFlag r }

/-- ADC's 9-bit intermediate `a + M + b2n(P.C)`, 0..511 (R102). -/
def adcSum (a m : Byte) (carry : Bool) : Nat := a.toNat + m.toNat + b2n carry

/-- ADC's result, the intermediate modulo 256 (R102). -/
def adcResult (a m : Byte) (carry : Bool) : Byte := BitVec.ofNat 8 (adcSum a m carry)

/-- "C = intermediate>255" (R102). -/
def adcCarry (a m : Byte) (carry : Bool) : Bool := decide (adcSum a m carry > 255)

/-- `(~(a ^ M) & (a ^ r) & 0x80) != 0` (R102). -/
def adcOverflow (a m r : Byte) : Bool := decide (~~~(a ^^^ m) &&& (a ^^^ r) &&& 0x80 ≠ 0)

/-- The flags ADC leaves: C, V, Z and N written, the others kept; D is not read (R102, R26). -/
def Status.afterAdc (p : Status) (a m : Byte) : Status :=
  Status.setZN
    { p with c := adcCarry a m p.c, v := adcOverflow a m (adcResult a m p.c) } (adcResult a m p.c)

/-- The flags a compare of `r` with `m` leaves: Z when equal, N from bit 7 of the truncated difference, C when
`r` is not below `m` unsigned; the carry is no input, and the other flags are kept (R103, R104). -/
def Status.afterCompare (p : Status) (r m : Byte) : Status :=
  { p with z := decide (r = m), n := negativeFlag (r - m), c := decide (r.toNat ≥ m.toNat) }

end Sys2Proof.Machine
end

