-- ==== Sys2Proof/Machine/Ops.lean ====
section
/-! DEFINITION. The named operations over memory and registers: the primitives of spec/00_scope.md R8 to R11,
fetching an instruction (spec/40_step_and_addressing.md R81, R82) and the UnknownOpcode halt, this hardware's
only exceptional event (spec/60_exceptions.md R117). -/

namespace Sys2Proof.Machine

/-- `MemRead(addr, 1)`: the byte stored at the address; changes nothing (R36). -/
def State.read (s : State) (addr : Word) : Byte := s.mem.read addr.toNat

/-- `MemWrite(addr, 1, v)` for a byte `v`: dropped in the font ROM region under ROM_WRITE_POLICY = ignore,
else the byte is stored (R37). -/
def State.write (s : State) (addr : Word) (v : Byte) : State :=
  if s.platform.dropsWrite addr.toNat then s
  else { s with mem := s.mem.write addr.toNat v }

/-- `MemWrite(addr, 1, v)` for any number `v`: "masks to 8 bits" (R8, R37). -/
def State.writeNat (s : State) (addr : Word) (v : Nat) : State := s.write addr (byteOf v)

/-- `Fetch()`: the byte at PC, and PC advanced by one modulo 65536 (R9). -/
def State.fetch (s : State) : Byte × State := (s.read s.pc, { s with pc := s.pc + 1 })

/-- The stack byte's address `0x0100 | SP` (R10, R17). -/
def stackAddress (sp : Byte) : Word := 0x0100 ||| zext16 sp

/-- `Push(v)` (R10). -/
def State.push (s : State) (v : Byte) : State :=
  let s := s.write (stackAddress s.sp) v
  { s with sp := s.sp - 1 }

/-- `Pull()` (R10). -/
def State.pull (s : State) : Byte × State :=
  let s := { s with sp := s.sp + 1 }
  (s.read (stackAddress s.sp), s)

/-- `SetZN(r)` on the state's P (R11). -/
def State.setZN (s : State) (r : Byte) : State := { s with p := s.p.setZN r }

/-- `n` more cycles in the bookkeeping counter (R143). -/
def State.addCycles (s : State) (n : Nat) : State := { s with cycles := s.cycles + n }

/-- The UnknownOpcode halt, from the state after the opcode fetch: the run state becomes
`Halted(UnknownOpcode)` and the fetch's one cycle is counted; A, X, Y, SP, P, PC and memory are kept, nothing
is pushed and no vector is read (R117, R122). -/
def State.haltUnknownOpcode (s : State) : State :=
  { s with runState := .halted .unknownOpcode, cycles := s.cycles + 1 }

/-- What fetching at PC gives: an instruction with its opcode byte and operand, or the opcode byte's tier (R66, R81). -/
inductive Fetched where
  | instr (op : Byte) (i : Instr)
  | unknownOpcode
  | refusedTier (op : Byte)
deriving DecidableEq, Repr

/-- The fetches of one instruction: the opcode at PC, then, after dispatch, exactly its operand bytes, a 16-bit
operand low byte first (R81 to R83, R87); and the state after them. -/
def State.fetchInstr (s : State) : Fetched × State :=
  let (op, s) := s.fetch
  match opcodeClass s.platform.opcodeTable op with
  | .admitted (.noOperand i) => (.instr op i, s)
  | .admitted (.byteOperand f) =>
    let (b, s) := s.fetch
    (.instr op (f b), s)
  | .admitted (.wordOperand f) =>
    let (lo, s) := s.fetch
    let (hi, s) := s.fetch
    (.instr op (f (wordOf hi lo)), s)
  | .unknownOpcode => (.unknownOpcode, s)
  | .refusedTier => (.refusedTier op, s)

/-- The `n` bytes of memory from an address up, the address wrapping modulo 65536 (R9, R56). -/
def State.bytesAt (s : State) (addr : Word) : Nat → List Byte
  | 0 => []
  | n + 1 => s.read addr :: s.bytesAt (addr + 1) n

/-- Bytes put in memory from an address up, the address wrapping, the font ROM region included: a placing of
bytes from outside the machine, not an access of the core. -/
def State.placeBytes (s : State) (addr : Word) : List Byte → State
  | [] => s
  | b :: bs => State.placeBytes { s with mem := s.mem.write addr.toNat b } (addr + 1) bs

end Sys2Proof.Machine
end

