-- ==== Sys2Proof/Machine/Operands.lean ====
section
/-! DEFINITION. The addressing modes (spec/40_step_and_addressing.md R85 to R94): the effective address each
gives in a state, whether its index addition crossed a page, and the operand value of a read operation.
The state is the one after the instruction's own fetches. -/

namespace Sys2Proof.Machine

/-- The addressing modes with a memory operand, each with its fetched operand. -/
inductive MemOperand where
  | zeroPage (zp : Byte)
  | absolute (addr : Word)
  | absoluteX (base : Word)
  | absoluteY (base : Word)
  | indirectIndexedY (ptr : Byte)
deriving DecidableEq, Repr

/-- The operand of a read operation: an immediate value or a memory operand (R94). -/
inductive ReadOperand where
  | immediate (imm : Byte)
  | memory (m : MemOperand)
deriving DecidableEq, Repr

/-- `(base + index) mod 65536` (R88, R89, R90). -/
def indexed (base : Word) (index : Byte) : Word := base + zext16 index

/-- `crossed`: the index addition changes the high byte (R88, R89, R90). -/
def crossesPage (base : Word) (index : Byte) : Bool := decide (hiByte base ≠ hiByte (indexed base index))

/-- The base that Indirect Indexed,Y reads: the low byte at the pointer address and the high byte at the next
zero-page address, wrapping within page 0 (R90). -/
def State.pointerBase (s : State) (ptr : Byte) : Word :=
  let lo := s.read (zext16 ptr)
  let hi := s.read (zext16 (ptr + 1))
  wordOf hi lo

/-- EA, the effective address (R86 to R90). -/
def MemOperand.ea : MemOperand → State → Word
  | .zeroPage zp, _ => zext16 zp
  | .absolute addr, _ => addr
  | .absoluteX base, s => indexed base s.x
  | .absoluteY base, s => indexed base s.y
  | .indirectIndexedY ptr, s => indexed (s.pointerBase ptr) s.y

/-- `crossed`; only the indexed modes have it (R88 to R90). -/
def MemOperand.crossed : MemOperand → State → Bool
  | .zeroPage _, _ => false
  | .absolute _, _ => false
  | .absoluteX base, s => crossesPage base s.x
  | .absoluteY base, s => crossesPage base s.y
  | .indirectIndexedY ptr, s => crossesPage (s.pointerBase ptr) s.y

/-- M, the operand value of a read operation: the fetched byte, or the byte at EA read once (R85, R94). -/
def ReadOperand.value : ReadOperand → State → Byte
  | .immediate imm, _ => imm
  | .memory m, s => s.read (m.ea s)

/-- The page-cross penalty of a read operation: 1 when crossed, else 0 (R92). -/
def ReadOperand.penalty : ReadOperand → State → Nat
  | .immediate _, _ => 0
  | .memory m, s => b2n (m.crossed s)

/-- The target of a relative branch: PC-after-fetch plus the signed offset, modulo 65536 (R91). -/
def State.branchTarget (s : State) (off : Byte) : Word := s.pc + sext16 off

end Sys2Proof.Machine
end

