-- ==== Sys2Proof/Machine/LoadStore.lean ====
section
/-! DEFINITION. Loads and stores (spec/41_load_store.md R97 to R101). A meaning is what the instruction's handler
does in the state after the instruction's fetches; it adds its own penalties to `cycles`, and `step` adds the
base cost (assumption log 7). -/

namespace Sys2Proof.Machine

/-- What a meaning answers. -/
abbrev Result := Host.Outcome State Fault Refusal

/-- LDA: `A <- M; SetZN(A)` (R97), with the read penalty (R92). -/
def loadA (o : ReadOperand) (s : State) : Result :=
  .next ((State.setZN { s with a := o.value s } (o.value s)).addCycles (o.penalty s))

/-- LDX: `X <- M; SetZN(X)` (R98), with the read penalty (R92). -/
def loadX (o : ReadOperand) (s : State) : Result :=
  .next ((State.setZN { s with x := o.value s } (o.value s)).addCycles (o.penalty s))

/-- LDY: `Y <- M; SetZN(Y)` (R99), with the read penalty (R92). -/
def loadY (o : ReadOperand) (s : State) : Result :=
  .next ((State.setZN { s with y := o.value s } (o.value s)).addCycles (o.penalty s))

/-- A store of `v`: `MemWrite(EA, 1, v)`; no flag and no penalty (R92, R100, R101). -/
def storeByte (m : MemOperand) (v : Byte) (s : State) : Result := .next (s.write (m.ea s) v)

/-- 0xA9 LDA Immediate (R97, R85). -/
def execLdaImm (imm : Byte) (s : State) : Result := loadA (.immediate imm) s

/-- 0xA5 LDA Zero Page (R97, R86). -/
def execLdaZp (zp : Byte) (s : State) : Result := loadA (.memory (.zeroPage zp)) s

/-- 0xAD LDA Absolute (R97, R87). -/
def execLdaAbs (addr : Word) (s : State) : Result := loadA (.memory (.absolute addr)) s

/-- 0xBD LDA Absolute,X (R97, R88). -/
def execLdaAbsX (base : Word) (s : State) : Result := loadA (.memory (.absoluteX base)) s

/-- 0xB9 LDA Absolute,Y (R97, R89). -/
def execLdaAbsY (base : Word) (s : State) : Result := loadA (.memory (.absoluteY base)) s

/-- 0xB1 LDA Indirect Indexed,Y (R97, R90). -/
def execLdaIndY (ptr : Byte) (s : State) : Result := loadA (.memory (.indirectIndexedY ptr)) s

/-- 0xA2 LDX Immediate (R98, R85). -/
def execLdxImm (imm : Byte) (s : State) : Result := loadX (.immediate imm) s

/-- 0xA6 LDX Zero Page (R98, R86). -/
def execLdxZp (zp : Byte) (s : State) : Result := loadX (.memory (.zeroPage zp)) s

/-- 0xAE LDX Absolute (R98, R87). -/
def execLdxAbs (addr : Word) (s : State) : Result := loadX (.memory (.absolute addr)) s

/-- 0xBE LDX Absolute,Y (R98, R89). -/
def execLdxAbsY (base : Word) (s : State) : Result := loadX (.memory (.absoluteY base)) s

/-- 0xA0 LDY Immediate (R99, R85). -/
def execLdyImm (imm : Byte) (s : State) : Result := loadY (.immediate imm) s

/-- 0xA4 LDY Zero Page (R99, R86). -/
def execLdyZp (zp : Byte) (s : State) : Result := loadY (.memory (.zeroPage zp)) s

/-- 0xAC LDY Absolute (R99, R87). -/
def execLdyAbs (addr : Word) (s : State) : Result := loadY (.memory (.absolute addr)) s

/-- 0xBC LDY Absolute,X (R99, R88). -/
def execLdyAbsX (base : Word) (s : State) : Result := loadY (.memory (.absoluteX base)) s

/-- 0x85 STA Zero Page (R100, R86). -/
def execStaZp (zp : Byte) (s : State) : Result := storeByte (.zeroPage zp) s.a s

/-- 0x8D STA Absolute (R100, R87). -/
def execStaAbs (addr : Word) (s : State) : Result := storeByte (.absolute addr) s.a s

/-- 0x9D STA Absolute,X (R100, R88). -/
def execStaAbsX (base : Word) (s : State) : Result := storeByte (.absoluteX base) s.a s

/-- 0x99 STA Absolute,Y (R100, R89). -/
def execStaAbsY (base : Word) (s : State) : Result := storeByte (.absoluteY base) s.a s

/-- 0x91 STA Indirect Indexed,Y (R100, R90). -/
def execStaIndY (ptr : Byte) (s : State) : Result := storeByte (.indirectIndexedY ptr) s.a s

/-- 0x86 STX Zero Page (R101, R86). -/
def execStxZp (zp : Byte) (s : State) : Result := storeByte (.zeroPage zp) s.x s

/-- 0x8E STX Absolute (R101, R87). -/
def execStxAbs (addr : Word) (s : State) : Result := storeByte (.absolute addr) s.x s

end Sys2Proof.Machine
end

