-- ==== Sys2Proof/Machine/AddCompare.lean ====
section
/-! DEFINITION. Addition and comparison (spec/42_add_compare.md R102 to R104). -/

namespace Sys2Proof.Machine

/-- ADC: A and the flags C, V, Z, N from `A + M + C`, always binary (R102), with the read penalty (R92). -/
def addWithCarry (o : ReadOperand) (s : State) : Result :=
  .next (State.addCycles
    { s with a := adcResult s.a (o.value s) s.p.c, p := s.p.afterAdc s.a (o.value s) } (o.penalty s))

/-- CMP and CPY: the flags Z, N, C from comparing `r` with M; no register is written (R103, R104), with the
read penalty (R92). -/
def compareWith (r : Byte) (o : ReadOperand) (s : State) : Result :=
  .next (State.addCycles { s with p := s.p.afterCompare r (o.value s) } (o.penalty s))

/-- 0x69 ADC Immediate (R102, R85). -/
def execAdcImm (imm : Byte) (s : State) : Result := addWithCarry (.immediate imm) s

/-- 0x65 ADC Zero Page (R102, R86). -/
def execAdcZp (zp : Byte) (s : State) : Result := addWithCarry (.memory (.zeroPage zp)) s

/-- 0x6D ADC Absolute (R102, R87). -/
def execAdcAbs (addr : Word) (s : State) : Result := addWithCarry (.memory (.absolute addr)) s

/-- 0x7D ADC Absolute,X (R102, R88). -/
def execAdcAbsX (base : Word) (s : State) : Result := addWithCarry (.memory (.absoluteX base)) s

/-- 0x79 ADC Absolute,Y (R102, R89). -/
def execAdcAbsY (base : Word) (s : State) : Result := addWithCarry (.memory (.absoluteY base)) s

/-- 0x71 ADC Indirect Indexed,Y (R102, R90). -/
def execAdcIndY (ptr : Byte) (s : State) : Result := addWithCarry (.memory (.indirectIndexedY ptr)) s

/-- 0xC9 CMP Immediate (R103, R85). -/
def execCmpImm (imm : Byte) (s : State) : Result := compareWith s.a (.immediate imm) s

/-- 0xC5 CMP Zero Page (R103, R86). -/
def execCmpZp (zp : Byte) (s : State) : Result := compareWith s.a (.memory (.zeroPage zp)) s

/-- 0xCD CMP Absolute (R103, R87). -/
def execCmpAbs (addr : Word) (s : State) : Result := compareWith s.a (.memory (.absolute addr)) s

/-- 0xDD CMP Absolute,X (R103, R88). -/
def execCmpAbsX (base : Word) (s : State) : Result := compareWith s.a (.memory (.absoluteX base)) s

/-- 0xD9 CMP Absolute,Y (R103, R89). -/
def execCmpAbsY (base : Word) (s : State) : Result := compareWith s.a (.memory (.absoluteY base)) s

/-- 0xD1 CMP Indirect Indexed,Y (R103, R90). -/
def execCmpIndY (ptr : Byte) (s : State) : Result := compareWith s.a (.memory (.indirectIndexedY ptr)) s

/-- 0xC0 CPY Immediate (R104, R85). -/
def execCpyImm (imm : Byte) (s : State) : Result := compareWith s.y (.immediate imm) s

/-- 0xC4 CPY Zero Page (R104, R86). -/
def execCpyZp (zp : Byte) (s : State) : Result := compareWith s.y (.memory (.zeroPage zp)) s

/-- 0xCC CPY Absolute (R104, R87). -/
def execCpyAbs (addr : Word) (s : State) : Result := compareWith s.y (.memory (.absolute addr)) s

end Sys2Proof.Machine
end

