-- ==== Sys2Proof/Machine/Control.lean ====
section
/-! DEFINITION. Control transfer and NOP (spec/44_control.md R110 to R114). PC at entry is PC-after-fetch (R18). -/

namespace Sys2Proof.Machine

/-- 0x4C JMP Absolute: `PC <- EA` (R110). -/
def execJmp (addr : Word) (s : State) : Result := .next { s with pc := addr }

/-- 0x20 JSR Absolute: pushes `(PC - 1) mod 65536`, high byte then low byte, and goes to the operand, which was
fetched before the pushes (R111). -/
def execJsr (addr : Word) (s : State) : Result :=
  let ret := s.pc - 1
  let s := (s.push (hiByte ret)).push (loByte ret)
  .next { s with pc := addr }

/-- 0x60 RTS: pulls the low byte, then the high byte, and goes to their address plus one (R112). -/
def execRts (s : State) : Result :=
  let (lo, s) := s.pull
  let (hi, s) := s.pull
  .next { s with pc := wordOf hi lo + 1 }

/-- The penalty of a taken branch: 1, and 1 more if the target's high byte differs from PC-after-fetch's (R93). -/
def takenPenalty (pc target : Word) : Nat := 1 + b2n (decide (hiByte target ≠ hiByte pc))

/-- 0xF0 BEQ Relative: goes to the target if Z is set (R113), with the branch penalty (R93). -/
def execBeq (off : Byte) (s : State) : Result :=
  let target := s.branchTarget off
  if s.p.z then .next (State.addCycles { s with pc := target } (takenPenalty s.pc target))
  else .next s

/-- 0xEA NOP: "no state change beyond the fetch's PC advance" (R114). -/
def execNop (s : State) : Result := .next s

end Sys2Proof.Machine
end

