-- ==== Sys2Proof/Machine/Increment.lean ====
section
/-! DEFINITION. Register increment and decrement (spec/43_increment.md R107 to R109). -/

namespace Sys2Proof.Machine

/-- 0xE8 INX: `X <- (X + 1) mod 256; SetZN(X)` (R107). -/
def execInx (s : State) : Result := .next (State.setZN { s with x := s.x + 1 } (s.x + 1))

/-- 0xC8 INY: `Y <- (Y + 1) mod 256; SetZN(Y)` (R108). -/
def execIny (s : State) : Result := .next (State.setZN { s with y := s.y + 1 } (s.y + 1))

/-- 0xCA DEX: `X <- (X − 1) mod 256; SetZN(X)` (R109). -/
def execDex (s : State) : Result := .next (State.setZN { s with x := s.x - 1 } (s.x - 1))

end Sys2Proof.Machine
end

