-- ==== Sys2Proof/Machine/Dispatch.lean ====
section
/-! DEFINITION. One arm for each constructor of Instr. -/

namespace Sys2Proof.Machine

def exec (i : Instr) (s : State) : Host.Outcome State Fault Refusal :=
  match i with
  | .jsr addr => Sys2Proof.Machine.execJsr addr s
  | .jmp addr => Sys2Proof.Machine.execJmp addr s
  | .rts => Sys2Proof.Machine.execRts s
  | .adcZp zp => Sys2Proof.Machine.execAdcZp zp s
  | .adcImm imm => Sys2Proof.Machine.execAdcImm imm s
  | .adcAbs addr => Sys2Proof.Machine.execAdcAbs addr s
  | .adcIndY ptr => Sys2Proof.Machine.execAdcIndY ptr s
  | .adcAbsY base => Sys2Proof.Machine.execAdcAbsY base s
  | .adcAbsX base => Sys2Proof.Machine.execAdcAbsX base s
  | .staZp zp => Sys2Proof.Machine.execStaZp zp s
  | .stxZp zp => Sys2Proof.Machine.execStxZp zp s
  | .staAbs addr => Sys2Proof.Machine.execStaAbs addr s
  | .stxAbs addr => Sys2Proof.Machine.execStxAbs addr s
  | .staIndY ptr => Sys2Proof.Machine.execStaIndY ptr s
  | .staAbsY base => Sys2Proof.Machine.execStaAbsY base s
  | .staAbsX base => Sys2Proof.Machine.execStaAbsX base s
  | .ldyImm imm => Sys2Proof.Machine.execLdyImm imm s
  | .ldxImm imm => Sys2Proof.Machine.execLdxImm imm s
  | .ldyZp zp => Sys2Proof.Machine.execLdyZp zp s
  | .ldaZp zp => Sys2Proof.Machine.execLdaZp zp s
  | .ldxZp zp => Sys2Proof.Machine.execLdxZp zp s
  | .ldaImm imm => Sys2Proof.Machine.execLdaImm imm s
  | .ldyAbs addr => Sys2Proof.Machine.execLdyAbs addr s
  | .ldaAbs addr => Sys2Proof.Machine.execLdaAbs addr s
  | .ldxAbs addr => Sys2Proof.Machine.execLdxAbs addr s
  | .ldaIndY ptr => Sys2Proof.Machine.execLdaIndY ptr s
  | .ldaAbsY base => Sys2Proof.Machine.execLdaAbsY base s
  | .ldyAbsX base => Sys2Proof.Machine.execLdyAbsX base s
  | .ldaAbsX base => Sys2Proof.Machine.execLdaAbsX base s
  | .ldxAbsY base => Sys2Proof.Machine.execLdxAbsY base s
  | .cpyImm imm => Sys2Proof.Machine.execCpyImm imm s
  | .cpyZp zp => Sys2Proof.Machine.execCpyZp zp s
  | .cmpZp zp => Sys2Proof.Machine.execCmpZp zp s
  | .iny => Sys2Proof.Machine.execIny s
  | .cmpImm imm => Sys2Proof.Machine.execCmpImm imm s
  | .dex => Sys2Proof.Machine.execDex s
  | .cpyAbs addr => Sys2Proof.Machine.execCpyAbs addr s
  | .cmpAbs addr => Sys2Proof.Machine.execCmpAbs addr s
  | .cmpIndY ptr => Sys2Proof.Machine.execCmpIndY ptr s
  | .cmpAbsY base => Sys2Proof.Machine.execCmpAbsY base s
  | .cmpAbsX base => Sys2Proof.Machine.execCmpAbsX base s
  | .inx => Sys2Proof.Machine.execInx s
  | .nop => Sys2Proof.Machine.execNop s
  | .beq off => Sys2Proof.Machine.execBeq off s

end Sys2Proof.Machine
end

