-- ==== Sys2Proof/Machine/Step.lean ====
section
/-! DEFINITION. The step (spec/40_step_and_addressing.md R81): fetch, dispatch, handler, cycle accounting. -/

namespace Sys2Proof.Machine

/-- `step()`: exactly one instruction when the run state is `Idle` or `Running`, and no effect when it is
`Halted` (R33, R81). The base cost is added when the instruction has been fetched and the handler adds its
penalties: the sum of R143. -/
def step (s : State) : Host.Outcome State Fault Refusal :=
  match s.runState with
  | .halted _ => .next s
  | .idle | .running =>
    match s.fetchInstr with
    | (.instr op i, s1) => exec i (s1.addCycles (s.platform.baseCycles op i))
    | (.unknownOpcode, s1) => .next s1.haltUnknownOpcode
    | (.refusedTier op, s1) =>
      match s.platform.unlistedOpcodePolicy with
      | .refuseDocumented => .refused (.refusedOpcode op)
      | .haltAll => .next s1.haltUnknownOpcode

/-- The state with an instruction, given by its bits as spec/opcode_table.json numbers them, stored where `step`
fetches next, and a halted core made `Idle` so that it steps; nothing else is changed (assumption log 14). -/
def State.withFetchWord (s : State) (nbits w : Nat) : State :=
  let s := s.placeBytes s.pc (tableWordBytes nbits w)
  match s.runState with
  | .halted _ => { s with runState := .idle }
  | .idle | .running => s

end Sys2Proof.Machine
end

