-- ==== Sys2Proof/Machine/Assembler.lean ====
section
/-! DEFINITION. The assembler (spec/30_encoding.md R69 to R80), from parsed lines to bytes. It is the toolchain's, "not
part of the hardware" (R3): no definition of the machine uses this file. A line is given as parsed; the text form
of a line (R68) is read in AsmText.lean. -/

namespace Sys2Proof.Asm

/-- A symbol's name, case-sensitive (R68). -/
abbrev Name := List Char

/-- A primary: a numeral or a symbol (R69). -/
inductive Primary where
  | number (n : Nat)
  | symbol (name : Name)
deriving DecidableEq, Repr

/-- An expression: a primary, or its low or high byte (R69). -/
inductive Expr where
  | value (p : Primary)
  | lowByte (p : Primary)
  | highByte (p : Primary)
  /-- A text outside the grammar. -/
  | malformed
deriving DecidableEq, Repr

/-- An operand of `.BYTE`: an expression or a quoted string, as its character codes (R73). -/
inductive ByteItem where
  | expr (e : Expr)
  | text (codes : List Nat)
deriving DecidableEq, Repr

/-- The operand text of an instruction, by its form (R76). -/
inductive OperandText where
  /-- No operand. -/
  | none
  /-- `#expr`. -/
  | immediate (e : Expr)
  /-- `(expr),Y`. -/
  | indirectY (e : Expr)
  /-- `expr,X`. -/
  | indexedX (e : Expr)
  /-- `expr,Y`. -/
  | indexedY (e : Expr)
  /-- `expr`. -/
  | plain (e : Expr)
deriving DecidableEq, Repr

/-- What a line says, its label apart. -/
inductive Statement where
  /-- A blank or comment-only line, or a line with only a label. -/
  | empty
  /-- `NAME = expr` (R70). -/
  | constant (name : Name) (e : Expr)
  /-- `.ORG expr` (R72). -/
  | org (e : Expr)
  /-- `.BYTE v1, v2, ...` (R73). -/
  | byte (items : List ByteItem)
  /-- `.WORD v1, v2, ...` (R74). -/
  | word (values : List Expr)
  /-- `.ASCIIZ "text"` (R75). -/
  | asciiz (codes : List Nat)
  /-- An instruction (R76). -/
  | instr (m : Mnemonic) (o : OperandText)
  /-- A directive whose operands are not of its form. -/
  | malformed
  /-- A mnemonic, directive or operand form outside R76's table. -/
  | unknown
deriving DecidableEq, Repr

/-- A source line. -/
structure Line where
  number : Nat
  label : Option Name
  statement : Statement
deriving DecidableEq, Repr

/-- The error kinds (R78). -/
inductive ErrorKind where
  | duplicateSymbol
  | undefinedSymbol
  | unknownInstruction
  | branchOutOfRange
  | invalidDirectiveSyntax
deriving DecidableEq, Repr

/-- An error with its source line number (R78). -/
structure AsmError where
  line : Nat
  kind : ErrorKind
deriving DecidableEq, Repr

/-- A symbol table. -/
abbrev Symbols := List (Name × Nat)

/-- A symbol's value. -/
def lookup (name : Name) : Symbols → Option Nat
  | [] => none
  | (k, v) :: rest => if k = name then some v else lookup name rest

/-- A primary's value: a symbol that is not defined fails UndefinedSymbol. -/
def Primary.eval (syms : Symbols) : Primary → Except ErrorKind Nat
  | .number n => .ok n
  | .symbol name =>
    match lookup name syms with
    | some v => .ok v
    | none => .error .undefinedSymbol

/-- An expression's value, or its error: `<` is `v & 0xFF`, `>` is `(v >> 8) & 0xFF` (R69). -/
def Expr.eval (syms : Symbols) : Expr → Except ErrorKind Nat
  | .value p => p.eval syms
  | .lowByte p => (p.eval syms).map (· % 256)
  | .highByte p => (p.eval syms).map (· / 256 % 256)
  | .malformed => .error .invalidDirectiveSyntax

def Expr.isMalformed : Expr → Bool
  | .malformed => true
  | .value _ | .lowByte _ | .highByte _ => false

/-- The mnemonics that have a memory operand a plain expression can name (R76's last two rows). -/
def takesPlainOperand : Mnemonic → Bool
  | .lda | .ldx | .ldy | .sta | .stx | .adc | .cmp | .cpy => true
  | .inx | .iny | .dex | .jmp | .jsr | .rts | .beq | .nop => false

/-- The mode a mnemonic and operand form select in Pass 1, `none` for a combination R76 does not admit; `syms` are
the symbols already defined. -/
def selectMode (syms : Symbols) (m : Mnemonic) : OperandText → Option Mode
  | .none => if m ∈ [.inx, .iny, .dex, .rts, .nop] then some .implied else none
  | .immediate _ => if m ∈ [.lda, .ldx, .ldy, .adc, .cmp, .cpy] then some .immediate else none
  | .indirectY _ => if m ∈ [.lda, .sta, .adc, .cmp] then some .indirectIndexedY else none
  | .indexedX _ => if m ∈ [.lda, .ldy, .sta, .adc, .cmp] then some .absoluteX else none
  | .indexedY _ => if m ∈ [.lda, .ldx, .sta, .adc, .cmp] then some .absoluteY else none
  | .plain e =>
    if m = .beq then some .relative
    else if m = .jmp ∨ m = .jsr then some .absolute
    else if takesPlainOperand m then
      match e.eval syms with
      | .ok v => if v < 256 then some .zeroPage else some .absolute
      | .error _ => some .absolute
    else none

/-- The instruction of a mnemonic and mode with operand value `v`, taken to its field's low bits (R62, R76). -/
def instrOf (m : Mnemonic) (mode : Mode) (v : Nat) : Option Instr :=
  match instrForm m mode with
  | some (.noOperand i) => some i
  | some (.byteOperand mk) => some (mk (BitVec.ofNat 8 v))
  | some (.wordOperand mk) => some (mk (BitVec.ofNat 16 v))
  | none => none

/-- A branch's offset byte: `target − (line address + 2)`, out of range outside [−128, 127] (R77). -/
def branchOffset (lineAddress target : Nat) : Option Byte :=
  let off : Int := (target : Int) - (lineAddress + 2)
  if -128 ≤ off ∧ off ≤ 127 then some (BitVec.ofNat 8 (off % 256).toNat) else none

/-- The expression of an operand form. -/
def OperandText.expr : OperandText → Option Expr
  | .none => Option.none
  | .immediate e | .indirectY e | .indexedX e | .indexedY e | .plain e => some e

/-- A line after Pass 1: its address and, for an instruction, the mode Pass 1 selected. -/
structure Placed where
  number : Nat
  address : Nat
  statement : Statement
  mode : Option Mode
deriving DecidableEq, Repr

/-- The state of Pass 1. -/
structure Pass1 where
  cursor : Nat
  constants : Symbols
  labels : Symbols
  errors : List AsmError
  placed : List Placed
  /-- The cursor has passed the end of the address space (R78). -/
  past : Bool
deriving DecidableEq, Repr

/-- All symbols seen so far. -/
def Pass1.symbols (s : Pass1) : Symbols := s.constants ++ s.labels

def Pass1.error (s : Pass1) (line : Nat) (k : ErrorKind) : Pass1 := { s with errors := s.errors ++ [⟨line, k⟩] }

/-- The cursor moved on by `n` bytes. -/
def Pass1.advance (s : Pass1) (n : Nat) : Pass1 :=
  { s with cursor := s.cursor + n, past := s.past || decide (s.cursor + n > 65536) }

/-- The label of a line that is neither a constant definition nor `.ORG`, at the cursor (R71). -/
def Pass1.label (s : Pass1) (line : Nat) : Option Name → Pass1
  | none => s
  | some name =>
    if (lookup name s.symbols).isSome then s.error line .duplicateSymbol
    else { s with labels := s.labels ++ [(name, s.cursor)] }

/-- The number of bytes an operand of `.BYTE` emits (R73). -/
def ByteItem.size : ByteItem → Nat
  | .expr _ => 1
  | .text codes => codes.length

/-- The size of a statement in bytes (R73 to R76). -/
def Statement.size (mode : Option Mode) : Statement → Nat
  | .empty | .constant _ _ | .org _ | .malformed | .unknown => 0
  | .byte items => (items.map ByteItem.size).sum
  | .word values => 2 * values.length
  | .asciiz codes => codes.length + 1
  | .instr _ _ => (mode.map Mode.length).getD 0

/-- A statement placed at the cursor. -/
def Pass1.place (s : Pass1) (l : Line) (mode : Option Mode) : Pass1 :=
  Pass1.advance { s with placed := s.placed ++ [⟨l.number, s.cursor, l.statement, mode⟩] } (l.statement.size mode)

/-- The expressions of a statement that are not of the grammar (R69). -/
def Statement.malformedExprs : Statement → Nat
  | .empty | .asciiz _ | .malformed | .unknown => 0
  | .constant _ e | .org e => [e].countP Expr.isMalformed
  | .byte items => items.countP fun it =>
    match it with
    | .expr e => e.isMalformed
    | .text _ => false
  | .word values => values.countP Expr.isMalformed
  | .instr _ o => o.expr.toList.countP Expr.isMalformed

/-- An error InvalidDirectiveSyntax for each malformed expression of a line: all errors are collected (R78). -/
def Pass1.malformedErrors (s : Pass1) (l : Line) : Pass1 :=
  { s with errors := s.errors ++ List.replicate l.statement.malformedExprs ⟨l.number, .invalidDirectiveSyntax⟩ }

/-- The constant definition `name = e` (R70), every error of it collected (R78). Of what R70 leaves open: a label in
the expression fails UndefinedSymbol, and a definition that failed leaves its name undefined, so that a later one of
the same name is no duplicate. DESIGN CHOICE (assumption log 19). -/
def Pass1.constant (s : Pass1) (line : Nat) (name : Name) (e : Expr) : Pass1 :=
  match (lookup name s.symbols).isSome, e.eval s.constants with
  | true, .ok _ => s.error line .duplicateSymbol
  | true, .error k => (s.error line .duplicateSymbol).error line k
  | false, .ok v => { s with constants := s.constants ++ [(name, v)] }
  | false, .error k => s.error line k

/-- Pass 1 on one line (R70 to R76, R78). The label of a constant definition or an `.ORG` is not recorded, whether or
not its expression is of the grammar (R71). -/
def Pass1.line (s : Pass1) (l : Line) : Pass1 :=
  match l.statement with
  | .constant name e => s.constant l.number name e
  | .org e =>
    match e.eval s.symbols with
    | .ok v => { s with cursor := v, past := s.past || decide (v > 65536) }
    | .error k => s.error l.number k
  | .instr m o =>
    let s := (s.label l.number l.label).malformedErrors l
    match selectMode s.symbols m o with
    | some mode => s.place l (some mode)
    | none => s.error l.number .unknownInstruction
  | .malformed => (s.label l.number l.label).error l.number .invalidDirectiveSyntax
  | .unknown => (s.label l.number l.label).error l.number .unknownInstruction
  | .empty | .byte _ | .word _ | .asciiz _ => ((s.label l.number l.label).malformedErrors l).place l none

/-- Pass 1: addresses and the symbol table; the cursor starts at 0 (R72, R78). -/
def pass1 (lines : List Line) : Pass1 :=
  lines.foldl Pass1.line { cursor := 0, constants := [], labels := [], errors := [], placed := [], past := false }

/-- The bytes of an expression taken to its low bits, low byte first. -/
def lowByteOf (v : Nat) : Byte := BitVec.ofNat 8 v

/-- What one operand emits in Pass 2: its bytes, or why it fails. -/
abbrev Piece := Except ErrorKind (List Byte)

/-- An operand of `.BYTE`: a number's low 8 bits, or one byte for each character (R73). -/
def ByteItem.emit (syms : Symbols) : ByteItem → Piece
  | .text codes => .ok (codes.map lowByteOf)
  | .expr e => (e.eval syms).map fun v => [lowByteOf v]

/-- An operand of `.WORD`, low byte first (R74). -/
def emitWord (syms : Symbols) (e : Expr) : Piece := (e.eval syms).map fun v => [lowByteOf v, lowByteOf (v / 256)]

/-- An instruction without operand, or with operand value `v`, at an address and in the mode of Pass 1 (R76, R77). -/
def emitInstr (m : Mnemonic) (mode : Option Mode) (address v : Nat) : Piece :=
  if mode = some .relative then
    match branchOffset address v with
    | none => .error .branchOutOfRange
    | some off => .ok (encode (.beq off))
  else
    match mode.bind fun mode => instrOf m mode v with
    | some i => .ok (encode i)
    | none => .error .unknownInstruction

/-- What a placed line emits in Pass 2, operand by operand (R73 to R77). -/
def emit (syms : Symbols) (p : Placed) : List Piece :=
  match p.statement with
  | .empty | .constant _ _ | .org _ => []
  | .malformed => [.error .invalidDirectiveSyntax]
  | .unknown => [.error .unknownInstruction]
  | .byte items => items.map (ByteItem.emit syms)
  | .word values => values.map (emitWord syms)
  | .asciiz codes => [.ok (codes.map lowByteOf ++ [0])]
  | .instr m o =>
    match o.expr with
    | none => [emitInstr m p.mode p.address 0]
    | some e => [(e.eval syms).bind (emitInstr m p.mode p.address)]

/-- The state of Pass 2: the bytes written, the end of the highest address written, and the lines that wrote an
address a second time. -/
structure Pass2 where
  image : List (Nat × Byte)
  size : Nat
  errors : List AsmError
  warnings : List Nat
deriving DecidableEq, Repr

/-- One byte written at an address; the last write of an address wins (R79). -/
def Pass2.put (s : Pass2) (line addr : Nat) (b : Byte) : Pass2 :=
  { s with
    image := (addr, b) :: s.image
    size := max s.size (addr + 1)
    warnings := if s.image.any (fun e => decide (e.1 = addr)) then s.warnings ++ [line] else s.warnings }

/-- Consecutive bytes written from an address. -/
def Pass2.putAll (s : Pass2) (line addr : Nat) : List Byte → Pass2
  | [] => s
  | b :: bs => Pass2.putAll (s.put line addr b) line (addr + 1) bs

/-- Pass 2 on what one line emits, from an address: the bytes written, and every error collected (R78). -/
def Pass2.pieces (s : Pass2) (line addr : Nat) : List Piece → Pass2
  | [] => s
  | .ok bs :: rest => Pass2.pieces (s.putAll line addr bs) line (addr + bs.length) rest
  | .error k :: rest => Pass2.pieces { s with errors := s.errors ++ [⟨line, k⟩] } line addr rest

/-- Pass 2 on one placed line. -/
def Pass2.line (syms : Symbols) (s : Pass2) (p : Placed) : Pass2 := s.pieces p.number p.address (emit syms p)

/-- The byte last written at an address, 0 in a gap (R79). -/
def imageByte (addr : Nat) : List (Nat × Byte) → Byte
  | [] => 0
  | (k, b) :: rest => if k = addr then b else imageByte addr rest

/-- What assembling gives. -/
inductive Assembly where
  /-- The artifact, and the lines warned about (R79). -/
  | ok (artifact : List Byte) (warnings : List Nat)
  /-- The errors collected by the pass that found any; there is no output (R78). -/
  | errors (es : List AsmError)
  /-- The cursor passed 0xFFFF: the spec gives the source no output (R78). -/
  | refused
deriving DecidableEq, Repr

/-- Assembling: Pass 2 runs only if Pass 1 found no error (R78); the artifact is the bytes from address 0 to the
highest written address, gaps 0 (R79). -/
def assemble (lines : List Line) : Assembly :=
  let s1 := pass1 lines
  if s1.errors ≠ [] then .errors s1.errors
  else if s1.past then .refused
  else
    let s2 := s1.placed.foldl (Pass2.line s1.symbols) { image := [], size := 0, errors := [], warnings := [] }
    if s2.errors ≠ [] then .errors s2.errors
    else .ok ((List.range s2.size).map fun a => imageByte a s2.image) s2.warnings

/-- The exit status of `assemble <input> <output>`: 0 on success and 1 on any error (R78). A refused source, for which
R78 names no error kind and no status, exits 1. DESIGN CHOICE (assumption log 19). -/
def Assembly.exitStatus : Assembly → Nat
  | .ok _ _ => 0
  | .errors _ => 1
  | .refused => 1

end Sys2Proof.Asm
end

