-- ==== Sys2Proof/Machine/HostPort.lean ====
section
/-! DEFINITION. The block's interface at transaction level (spec/10_state.md R32 to R34): the host's commands, each
issued at an instruction boundary, and what the host and the display may read. -/

namespace Sys2Proof.Machine

/-- `reset()`: accepted in every run state, the only way out of `Halted` (R132). The parameters stay. -/
def State.hostReset (s : State) : State := State.resetWith s.platform

/-- `run()`: from `Idle`, enters `Running`, after which the run loop steps; no effect otherwise (R33). -/
def State.hostRun (s : State) : State :=
  match s.runState with
  | .idle => { s with runState := .running }
  | .running => s
  | .halted _ => s

/-- `stop()`: "forces Running→Idle without altering PC"; no effect otherwise (R33). -/
def State.hostStop (s : State) : State :=
  match s.runState with
  | .idle => s
  | .running => { s with runState := .idle }
  | .halted _ => s

/-- What `loadProgram` returns (R34). -/
inductive LoadResult where
  | ok
  | romOverlap
  | capacityExceeded
deriving DecidableEq, Repr

/-- `loadProgram(bytes, addr)`: the result and the state after it (R55). -/
def State.loadProgram (s : State) (bytes : List Nat) (addr : Word) : LoadResult × State :=
  if s.platform.overlapsFont addr.toNat bytes.length then (.romOverlap, s)
  else if addr.toNat + bytes.length > 65536 then (.capacityExceeded, s)
  else (.ok, { s with mem := s.mem.load addr.toNat (bytes.map byteOf) })

/-- A host command (R33). -/
inductive Command where
  | reset
  | step
  | run
  | stop
  | loadProgram (bytes : List Nat) (addr : Word)
deriving DecidableEq, Repr

/-- A command's effect on the state (R33). -/
def command (c : Command) (s : State) : Result :=
  match c with
  | .reset => .next s.hostReset
  | .step => step s
  | .run => .next s.hostRun
  | .stop => .next s.hostStop
  | .loadProgram bytes addr => .next (s.loadProgram bytes addr).2

/-- The run loop (R33): steps while the run state is `Running`, pausing at the latest after `n` instruction
boundaries; a pause changes no state. -/
def runLoop : Nat → State → Result
  | 0, s => .next s
  | n + 1, s =>
    match s.runState with
    | .idle => .next s
    | .halted _ => .next s
    | .running =>
      match step s with
      | .next t => runLoop n t
      | .fault r => .fault r
      | .refused r => .refused r

/-- The registers and run state as the host reads them (R32). -/
structure Observation where
  a : Byte
  x : Byte
  y : Byte
  sp : Byte
  p : Byte
  pc : Word
  runState : RunState
deriving DecidableEq, Repr

/-- The observation port's registers and run state; its memory reads are `State.read` (R32). -/
def State.observe (s : State) : Observation where
  a := s.a
  x := s.x
  y := s.y
  sp := s.sp
  p := s.p.toByte
  pc := s.pc
  runState := s.runState

/-- The display's read port on video memory (R32, R41). -/
def State.videoMemory (s : State) : List Byte :=
  (List.range s.platform.videoSize).map fun k => s.mem.read (s.platform.videoBase + k)

/-- The display's read port on the font ROM (R32, R40). -/
def State.fontRom (s : State) : List Byte :=
  (List.range s.platform.fontSize).map fun k => s.mem.read (s.platform.fontBase + k)

/-- The end of a run (R145). -/
def State.ended (s : State) : Bool := decide (s.runState = .halted .unknownOpcode)

end Sys2Proof.Machine
end

