-- ==== Sys2Proof/Safety.lean ====
section
/-! DEFINITION. The terms the statements are written in: frames, what a flag result is, which stores the font ROM
drops, and the invariant of a state the machine can be in. -/

namespace Sys2Proof.Machine

/-- Every byte of memory reads the same. -/
def SameMemory (s t : State) : Prop := ∀ a : Word, t.read a = s.read a

/-- Every byte of memory outside `stored` reads the same. -/
def SameMemoryBut (stored : List Word) (s t : State) : Prop := ∀ a : Word, a ∉ stored → t.read a = s.read a

/-- The run state and the parameters are kept. -/
def SameControl (s t : State) : Prop := t.runState = s.runState ∧ t.platform = s.platform

/-- The flags B, D and I, which no instruction writes (R25 to R27), are kept. -/
def KeepsBDI (p q : Status) : Prop := q.b = p.b ∧ q.d = p.d ∧ q.i = p.i

/-- Z and N are those of the byte `r`: Z when it is zero, N its bit 7 (R11, R28). -/
def HasZNOf (r : Byte) (q : Status) : Prop := (q.z = true ↔ r.toNat = 0) ∧ (q.n = true ↔ 128 ≤ r.toNat)

/-- Address `a` is in [FONT_BASE, FONT_BASE + FONT_SIZE) (R40). -/
def InFontRom (p : Platform) (a : Word) : Prop :=
  p.fontBase ≤ a.toNat ∧ a.toNat < p.fontBase + p.fontData.length

/-- A store to address `a` has no effect (R37). -/
def StoreDropped (p : Platform) (a : Word) : Prop := p.romWritePolicy = .ignore ∧ InFontRom p a

/-- Storing `v` at `a` between `s` and `t`: the byte reads `v` after, or as before where the store is dropped (R37). -/
def Stored (s t : State) (a : Word) (v : Byte) : Prop :=
  (StoreDropped s.platform a → t.read a = s.read a) ∧ (¬ StoreDropped s.platform a → t.read a = v)

/-- The core steps when told to: it is `Idle` or `Running` (R81). -/
def CanStep (s : State) : Prop := s.runState = .idle ∨ s.runState = .running

/-- The table has a descriptor for the opcode byte (R12). -/
def HasDescriptor (t : OpcodeTable) (op : Byte) : Prop := ∃ r ∈ t, r.opcode = op

/-- The table gives the opcode byte the mnemonic and mode of the instruction (R62). -/
def HasRow (t : OpcodeTable) (op : Byte) (i : Instr) : Prop := ⟨op, i.mnemonic, i.mode⟩ ∈ t

/-- Under ROM_WRITE_POLICY = ignore the font ROM region holds FONT_DATA (R40). -/
def FontIntact (s : State) : Prop :=
  s.platform.romWritePolicy = .ignore →
    ∀ k b, s.platform.fontData[k]? = some b → s.mem.read (s.platform.fontBase + k) = b

/-- The invariant: memory in canonical form, legal parameters, font ROM intact. -/
def State.Inv (s : State) : Prop := s.mem.wf = true ∧ s.platform.WellFormed ∧ FontIntact s

/-- `t` is `s` but for the flags that no instruction reads, N, V, B, D and I (R19). -/
def SameButUnreadFlags (s t : State) : Prop := ∃ n v b d i, t = { s with p := ⟨n, v, b, d, i, s.p.z, s.p.c⟩ }

end Sys2Proof.Machine
end

