-- ==== Sys2Proof/Certificates/Slice0/Obligations.lean ====
section
/-! DEFINITION. The statements for the provers. Each says what spec/ says an instruction or the machine does;
the rules it formalises are in its docstring and in OBLIGATIONS.json.

A statement about an instruction has one clause for each of its forms, and its conclusion is that `exec` answers
a next state with the stated contents: result, completion and frame in one. The state `exec` starts from is the
one after the instruction's fetches, as `StepRunsDecodedInstruction` says.

The opcode byte values and the mnemonic and mode pairs are R62's, which the spec itself takes from general knowledge
(its decisions D3, D4; assumption log 1). Where another of the spec's decisions is stated, the docstring names it. -/

namespace Sys2Proof.Claims

open Sys2Proof.Machine

/-- Everything but A, X, Y, P, memory and the cycle counter is kept. -/
def KeepsSpPc (s t : State) : Prop := t.sp = s.sp ∧ t.pc = s.pc ∧ SameControl s t

/-- `i`, with opcode byte `op`, loads A from `o`. -/
def LoadsA (op : Byte) (i : Instr) (o : ReadOperand) : Prop :=
  i.opcode = op ∧ ∀ s, ∃ t, exec i s = .next t ∧
    t.a = o.value s ∧ HasZNOf (o.value s) t.p ∧
    t.p.c = s.p.c ∧ t.p.v = s.p.v ∧ KeepsBDI s.p t.p ∧
    t.x = s.x ∧ t.y = s.y ∧ KeepsSpPc s t ∧ SameMemory s t ∧ t.cycles = s.cycles + o.penalty s

/-- `i`, with opcode byte `op`, loads X from `o`. -/
def LoadsX (op : Byte) (i : Instr) (o : ReadOperand) : Prop :=
  i.opcode = op ∧ ∀ s, ∃ t, exec i s = .next t ∧
    t.x = o.value s ∧ HasZNOf (o.value s) t.p ∧
    t.p.c = s.p.c ∧ t.p.v = s.p.v ∧ KeepsBDI s.p t.p ∧
    t.a = s.a ∧ t.y = s.y ∧ KeepsSpPc s t ∧ SameMemory s t ∧ t.cycles = s.cycles + o.penalty s

/-- `i`, with opcode byte `op`, loads Y from `o`. -/
def LoadsY (op : Byte) (i : Instr) (o : ReadOperand) : Prop :=
  i.opcode = op ∧ ∀ s, ∃ t, exec i s = .next t ∧
    t.y = o.value s ∧ HasZNOf (o.value s) t.p ∧
    t.p.c = s.p.c ∧ t.p.v = s.p.v ∧ KeepsBDI s.p t.p ∧
    t.a = s.a ∧ t.x = s.x ∧ KeepsSpPc s t ∧ SameMemory s t ∧ t.cycles = s.cycles + o.penalty s

/-- `i`, with opcode byte `op`, stores the register `reg` at the effective address of `m`. -/
def StoresRegister (reg : State → Byte) (op : Byte) (i : Instr) (m : MemOperand) : Prop :=
  i.opcode = op ∧ ∀ s, ∃ t, exec i s = .next t ∧
    Stored s t (m.ea s) (reg s) ∧ SameMemoryBut [m.ea s] s t ∧
    t.a = s.a ∧ t.x = s.x ∧ t.y = s.y ∧ t.p = s.p ∧ KeepsSpPc s t ∧ t.cycles = s.cycles

/-- `i`, with opcode byte `op`, adds the operand `o` and the carry to A. -/
def AddsWithCarry (op : Byte) (i : Instr) (o : ReadOperand) : Prop :=
  i.opcode = op ∧ ∀ s, ∃ t, exec i s = .next t ∧
    t.a.toNat = (s.a.toNat + (o.value s).toNat + b2n s.p.c) % 256 ∧
    (t.p.c = true ↔ s.a.toNat + (o.value s).toNat + b2n s.p.c > 255) ∧
    (t.p.v = true ↔ (~~~(s.a ^^^ o.value s) &&& (s.a ^^^ t.a) &&& 0x80#8) ≠ 0#8) ∧
    HasZNOf t.a t.p ∧ KeepsBDI s.p t.p ∧
    t.x = s.x ∧ t.y = s.y ∧ KeepsSpPc s t ∧ SameMemory s t ∧ t.cycles = s.cycles + o.penalty s

/-- The V that `i` leaves is the signed overflow of the sum. -/
def OverflowsSigned (i : Instr) (o : ReadOperand) : Prop :=
  ∀ s, ∃ t, exec i s = .next t ∧
    (t.p.v = true ↔ s.a.toInt + (o.value s).toInt + b2n s.p.c < -128 ∨
      127 < s.a.toInt + (o.value s).toInt + b2n s.p.c) ∧
    (t.p.v = true ↔ s.a.msb = (o.value s).msb ∧ t.a.msb ≠ s.a.msb)

/-- `i`, with opcode byte `op`, compares the register `reg` with the operand `o`. -/
def Compares (reg : State → Byte) (op : Byte) (i : Instr) (o : ReadOperand) : Prop :=
  i.opcode = op ∧ ∀ s, ∃ t, exec i s = .next t ∧
    (t.p.z = true ↔ (reg s).toNat = (o.value s).toNat) ∧
    (t.p.n = true ↔ 128 ≤ ((reg s).toNat + 256 - (o.value s).toNat) % 256) ∧
    (t.p.c = true ↔ (o.value s).toNat ≤ (reg s).toNat) ∧
    t.p.v = s.p.v ∧ KeepsBDI s.p t.p ∧
    t.a = s.a ∧ t.x = s.x ∧ t.y = s.y ∧ KeepsSpPc s t ∧ SameMemory s t ∧ t.cycles = s.cycles + o.penalty s

/-- The flags and the rest of an increment or decrement whose result is `r`. -/
def Counts (r : Byte) (s t : State) : Prop :=
  HasZNOf r t.p ∧ t.p.c = s.p.c ∧ t.p.v = s.p.v ∧ KeepsBDI s.p t.p ∧
    t.a = s.a ∧ KeepsSpPc s t ∧ SameMemory s t ∧ t.cycles = s.cycles

/-- Every register but PC, and every flag, is kept. -/
def KeepsRegisters (s t : State) : Prop :=
  t.a = s.a ∧ t.x = s.x ∧ t.y = s.y ∧ t.p = s.p ∧ SameControl s t

/-- Two outcomes of which the second is the first with `n` more cycles. -/
def SameButCycles (n : Nat) (r q : Result) : Prop :=
  (∀ t, r = .next t → q = .next { t with cycles := t.cycles + n }) ∧ (∀ e, r = .refused e → q = .refused e)

/-- `i` in state `s` overwrites PC: JMP, JSR, RTS and a taken BEQ (R96). -/
def TransfersControl (i : Instr) (s : State) : Prop :=
  i.mnemonic = .jmp ∨ i.mnemonic = .jsr ∨ i.mnemonic = .rts ∨ i.mnemonic = .beq ∧ s.p.z = true

end Sys2Proof.Claims

open Sys2Proof Sys2Proof.Machine Sys2Proof.Claims

/-! ### Encoding and decoding -/

/-- The decoder reads from an instruction's encoding, whatever bytes follow it, that instruction with every operand
bit, and leaves exactly the bytes that follow: with R62's opcode byte in R62's table, and with the opcode byte of any
row of the instruction's mnemonic and mode in any table (R56 to R62; a table other than R62's is assumption log 1). -/
def Obligations.DecodeOfEncodeIsTheInstruction : Prop :=
  (∀ (i : Instr) (rest : List Byte), decode OpcodeTable.r62 (encode i ++ rest) = .instr i rest) ∧
  (∀ (t : OpcodeTable) (op : Byte) (i : Instr) (rest : List Byte), t.WellFormed → HasRow t op i →
    decode t (op :: i.operandBytes ++ rest) = .instr i rest)

/-- A byte sequence that decodes to an instruction is the opcode byte of a row of that instruction's mnemonic and mode
followed by its operand bytes and the rest, and so with R62's table its encoding and the rest (R56, R62, R65; a table
other than R62's is assumption log 1). -/
def Obligations.DecodedBytesAreTheEncoding : Prop :=
  (∀ (bytes : List Byte) (i : Instr) (rest : List Byte),
    decode OpcodeTable.r62 bytes = .instr i rest → bytes = encode i ++ rest) ∧
  (∀ (t : OpcodeTable) (bytes : List Byte) (i : Instr) (rest : List Byte),
    decode t bytes = .instr i rest → ∃ op, HasRow t op i ∧ bytes = op :: i.operandBytes ++ rest)

/-- Words written out from R62's rows and R57's formats decode to the instructions they stand for. -/
def Obligations.SampleWordsDecode : Prop :=
  decode OpcodeTable.r62 [0xA9, 0x7F] = .instr (.ldaImm 0x7F) [] ∧
  decode OpcodeTable.r62 [0x91, 0x80] = .instr (.staIndY 0x80) [] ∧
  decode OpcodeTable.r62 [0x79, 0x13, 0x00] = .instr (.adcAbsY 0x0013) [] ∧
  decode OpcodeTable.r62 [0xDD, 0xFF, 0x00] = .instr (.cmpAbsX 0x00FF) [] ∧
  decode OpcodeTable.r62 [0xCA] = .instr .dex [] ∧
  decode OpcodeTable.r62 [0x20, 0x34, 0x12] = .instr (.jsr 0x1234) [] ∧
  decode OpcodeTable.r62 [0xF0, 0x80] = .instr (.beq 0x80) []

/-- With R62's table every opcode byte is admitted, of the halt tier or of the refused tier, and the tier is decided by
R63's and R64's lists (R63 to R66; the tiers are the spec's decision D5, assumption log 2). -/
def Obligations.EveryOpcodeByteHasOneTier : Prop :=
  ∀ (op : Byte) (bytes : List Byte),
    (op ∈ haltTierBytes ↔ decode OpcodeTable.r62 (op :: bytes) = .unknownOpcode) ∧
    (op ∈ refusedTierBytes ↔ decode OpcodeTable.r62 (op :: bytes) = .refusedTier op) ∧
    ((∃ i : Instr, i.opcode = op) ↔ op ∉ haltTierBytes ∧ op ∉ refusedTierBytes) ∧
    (HasDescriptor OpcodeTable.r62 op ↔ op ∉ haltTierBytes ∧ op ∉ refusedTierBytes)

/-! ### The step -/

/-- `Fetch()` gives the byte at PC and advances PC by one modulo 65536; nothing else changes (R9). -/
def Obligations.FetchReadsAtPcAndAdvances : Prop :=
  ∀ s : State, s.fetch.1 = s.mem.read s.pc.toNat ∧ s.fetch.2.pc.toNat = (s.pc.toNat + 1) % 65536 ∧
    s.fetch.2 = { s with pc := s.fetch.2.pc }

/-- `Push(v)` writes at `0x0100 | SP`, then decrements SP modulo 256; `Pull()` increments SP modulo 256, then reads at
`0x0100 | SP` (R10). -/
def Obligations.PushAndPullUseStackPage : Prop :=
  ∀ (s : State) (v : Byte) (top next : Word),
    top = BitVec.ofNat 16 (256 + s.sp.toNat) → next = BitVec.ofNat 16 (256 + (s.sp.toNat + 1) % 256) →
    ((s.push v).sp.toNat = (s.sp.toNat + 255) % 256 ∧ s.push v = { s.writeNat top v.toNat with sp := (s.push v).sp }) ∧
    (s.pull.2.sp.toNat = (s.sp.toNat + 1) % 256 ∧ s.pull = (s.read next, { s with sp := s.pull.2.sp }))

/-- A step whose bytes at PC decode to an instruction is that instruction's `exec` in the state whose PC is past
its bytes and whose cycle counter has its base cost (R9, R81, R143). That the base cost is added before the handler
runs, where R81 writes one addition at the end, is the model's placement (assumption log 7), and that it includes the
fetch cycles is the spec's decision D17. -/
def Obligations.StepRunsDecodedInstruction : Prop :=
  ∀ (s : State) (i : Instr) (rest : List Byte),
    CanStep s → decode s.platform.opcodeTable (s.bytesAt s.pc 3) = .instr i rest →
    step s = exec i
      { s with pc := s.pc + BitVec.ofNat 16 i.length, cycles := s.cycles + s.platform.baseCycles (s.read s.pc) i }

/-- A step with an instruction's encoding at PC, by an opcode byte of the state's instruction table, runs that
instruction (R56, R62, R81). That the base cost is added before the handler runs is the model's placement (assumption
log 7), that it includes the fetch cycles is the spec's decision D17, and a table other than R62's is assumption
log 1. -/
def Obligations.StepRunsEncodedInstruction : Prop :=
  ∀ (s : State) (op : Byte) (i : Instr),
    CanStep s → s.platform.opcodeTable.WellFormed → HasRow s.platform.opcodeTable op i →
    s.bytesAt s.pc i.length = op :: i.operandBytes →
    step s = exec i
      { s with pc := s.pc + BitVec.ofNat 16 i.length, cycles := s.cycles + s.platform.baseCycles op i }

/-- After a step of an instruction that does not transfer control, PC is past the instruction (R96). -/
def Obligations.StepMovesPcPastInstruction : Prop :=
  ∀ (s : State) (op : Byte) (i : Instr),
    CanStep s → s.platform.opcodeTable.WellFormed → HasRow s.platform.opcodeTable op i →
    s.bytesAt s.pc i.length = op :: i.operandBytes → ¬ TransfersControl i s →
    ∃ t, step s = .next t ∧ t.pc.toNat = (s.pc.toNat + i.length) % 65536

/-- A step with an opcode byte at PC that has no descriptor halts the core if R63 lists the byte, and whatever the byte
under `halt-all`: PC is past the byte, one cycle is counted, and nothing else changes (R117; the PC after a halt is the
spec's decision D7, the tiers its decision D5, assumption log 2, 8). A step halts in no other way. With R62's table the
bytes that halt are R63's, and R64's under `halt-all`. -/
def Obligations.UndefinedOpcodeHalts : Prop :=
  (∀ s : State, CanStep s → s.platform.opcodeTable.WellFormed →
    ¬ HasDescriptor s.platform.opcodeTable (s.read s.pc) →
    (s.read s.pc ∈ haltTierBytes ∨ s.platform.unlistedOpcodePolicy = .haltAll) →
    step s = .next { s with pc := s.pc + 1, runState := .halted .unknownOpcode, cycles := s.cycles + 1 }) ∧
  (∀ s t : State, CanStep s → s.platform.opcodeTable.WellFormed → step s = .next t →
    t.runState = .halted .unknownOpcode →
    ¬ HasDescriptor s.platform.opcodeTable (s.read s.pc) ∧
      (s.read s.pc ∈ haltTierBytes ∨ s.platform.unlistedOpcodePolicy = .haltAll)) ∧
  (∀ s : State, CanStep s → s.platform.opcodeTable = OpcodeTable.r62 →
    ((∃ t, step s = .next t ∧ t.runState = .halted .unknownOpcode) ↔
      s.read s.pc ∈ haltTierBytes ∨
        s.read s.pc ∈ refusedTierBytes ∧ s.platform.unlistedOpcodePolicy = .haltAll))

/-- A step is refused exactly on an opcode byte with no descriptor that R63 does not list, under the default policy, by
that byte (R64; the spec's decision D5, assumption log 2); with R62's table these are R64's bytes. -/
def Obligations.StepRefusesExactlyRefusedBytes : Prop :=
  (∀ (s : State) (r : Refusal), s.platform.opcodeTable.WellFormed →
    (step s = .refused r ↔
      CanStep s ∧ ¬ HasDescriptor s.platform.opcodeTable (s.read s.pc) ∧ s.read s.pc ∉ haltTierBytes ∧
        s.platform.unlistedOpcodePolicy = .refuseDocumented ∧ r = .refusedOpcode (s.read s.pc))) ∧
  (∀ (s : State) (r : Refusal), s.platform.opcodeTable = OpcodeTable.r62 →
    (step s = .refused r ↔
      CanStep s ∧ s.read s.pc ∈ refusedTierBytes ∧ s.platform.unlistedOpcodePolicy = .refuseDocumented ∧
        r = .refusedOpcode (s.read s.pc)))

/-- Every admitted instruction completes in every state, with no event: the run state and the parameters are kept
(R120, R125). -/
def Obligations.EveryInstructionCompletes : Prop :=
  ∀ (i : Instr) (s : State), ∃ t, exec i s = .next t ∧ t.runState = s.runState ∧ t.platform = s.platform

/-! ### Addressing modes -/

/-- Zero Page and Absolute addresses, and the indexed ones with their 16-bit wrap and page cross (R86 to R89). -/
def Obligations.DirectAndIndexedAddresses : Prop :=
  ∀ (s : State) (zp : Byte) (w : Word),
    ((MemOperand.zeroPage zp).ea s).toNat = zp.toNat ∧ (MemOperand.zeroPage zp).crossed s = false ∧
    (MemOperand.absolute w).ea s = w ∧ (MemOperand.absolute w).crossed s = false ∧
    ((MemOperand.absoluteX w).ea s).toNat = (w.toNat + s.x.toNat) % 65536 ∧
    ((MemOperand.absoluteX w).crossed s = true ↔ w.toNat / 256 ≠ (w.toNat + s.x.toNat) % 65536 / 256) ∧
    ((MemOperand.absoluteY w).ea s).toNat = (w.toNat + s.y.toNat) % 65536 ∧
    ((MemOperand.absoluteY w).crossed s = true ↔ w.toNat / 256 ≠ (w.toNat + s.y.toNat) % 65536 / 256)

/-- Indirect Indexed,Y: the pointer's low byte is read at p and its high byte at (p + 1) mod 256 (R90). -/
def Obligations.IndirectIndexedAddress : Prop :=
  ∀ (s : State) (p : Byte) (lo hi base : Nat),
    lo = (s.read (BitVec.ofNat 16 p.toNat)).toNat →
    hi = (s.read (BitVec.ofNat 16 ((p.toNat + 1) % 256))).toNat →
    base = hi * 256 + lo →
    ((MemOperand.indirectIndexedY p).ea s).toNat = (base + s.y.toNat) % 65536 ∧
    ((MemOperand.indirectIndexedY p).crossed s = true ↔ base / 256 ≠ (base + s.y.toNat) % 65536 / 256)

/-- M of a read operation is the fetched byte in Immediate mode and the byte at EA in the others, and the
page-cross penalty is one cycle when the index addition crosses, else none (R92, R94). -/
def Obligations.ReadOperandValueAndPenalty : Prop :=
  ∀ (s : State) (v : Byte) (m : MemOperand),
    (ReadOperand.immediate v).value s = v ∧ (ReadOperand.immediate v).penalty s = 0 ∧
    (ReadOperand.memory m).value s = s.mem.read (m.ea s).toNat ∧
    (m.crossed s = true → (ReadOperand.memory m).penalty s = 1) ∧
    (m.crossed s = false → (ReadOperand.memory m).penalty s = 0)

/-! ### Loads and stores -/

/-- LDA in its six forms: A, Z and N from the operand; everything else kept (R97). -/
def Obligations.LdaLoadsOperand : Prop :=
  (∀ v, LoadsA 0xA9 (.ldaImm v) (.immediate v)) ∧
  (∀ v, LoadsA 0xA5 (.ldaZp v) (.memory (.zeroPage v))) ∧
  (∀ v, LoadsA 0xAD (.ldaAbs v) (.memory (.absolute v))) ∧
  (∀ v, LoadsA 0xBD (.ldaAbsX v) (.memory (.absoluteX v))) ∧
  (∀ v, LoadsA 0xB9 (.ldaAbsY v) (.memory (.absoluteY v))) ∧
  (∀ v, LoadsA 0xB1 (.ldaIndY v) (.memory (.indirectIndexedY v)))

/-- LDX in its four forms (R98). -/
def Obligations.LdxLoadsOperand : Prop :=
  (∀ v, LoadsX 0xA2 (.ldxImm v) (.immediate v)) ∧
  (∀ v, LoadsX 0xA6 (.ldxZp v) (.memory (.zeroPage v))) ∧
  (∀ v, LoadsX 0xAE (.ldxAbs v) (.memory (.absolute v))) ∧
  (∀ v, LoadsX 0xBE (.ldxAbsY v) (.memory (.absoluteY v)))

/-- LDY in its four forms (R99). -/
def Obligations.LdyLoadsOperand : Prop :=
  (∀ v, LoadsY 0xA0 (.ldyImm v) (.immediate v)) ∧
  (∀ v, LoadsY 0xA4 (.ldyZp v) (.memory (.zeroPage v))) ∧
  (∀ v, LoadsY 0xAC (.ldyAbs v) (.memory (.absolute v))) ∧
  (∀ v, LoadsY 0xBC (.ldyAbsX v) (.memory (.absoluteX v)))

/-- STA in its five forms: A is stored at the effective address, where the font ROM does not drop the store; no
flag, no penalty, everything else kept (R100). -/
def Obligations.StaStoresAccumulator : Prop :=
  (∀ v, StoresRegister State.a 0x85 (.staZp v) (.zeroPage v)) ∧
  (∀ v, StoresRegister State.a 0x8D (.staAbs v) (.absolute v)) ∧
  (∀ v, StoresRegister State.a 0x9D (.staAbsX v) (.absoluteX v)) ∧
  (∀ v, StoresRegister State.a 0x99 (.staAbsY v) (.absoluteY v)) ∧
  (∀ v, StoresRegister State.a 0x91 (.staIndY v) (.indirectIndexedY v))

/-- STX in its two forms (R101). -/
def Obligations.StxStoresX : Prop :=
  (∀ v, StoresRegister State.x 0x86 (.stxZp v) (.zeroPage v)) ∧
  (∀ v, StoresRegister State.x 0x8E (.stxAbs v) (.absolute v))

/-! ### Addition, comparison, increment -/

/-- ADC in its six forms: A, C, V, Z and N from `A + M + C`, whatever D holds; everything else kept (R102). -/
def Obligations.AdcAddsWithCarry : Prop :=
  (∀ v, AddsWithCarry 0x69 (.adcImm v) (.immediate v)) ∧
  (∀ v, AddsWithCarry 0x65 (.adcZp v) (.memory (.zeroPage v))) ∧
  (∀ v, AddsWithCarry 0x6D (.adcAbs v) (.memory (.absolute v))) ∧
  (∀ v, AddsWithCarry 0x7D (.adcAbsX v) (.memory (.absoluteX v))) ∧
  (∀ v, AddsWithCarry 0x79 (.adcAbsY v) (.memory (.absoluteY v))) ∧
  (∀ v, AddsWithCarry 0x71 (.adcIndY v) (.memory (.indirectIndexedY v)))

/-- ADC's V is set exactly when the signed sum is outside −128..127, which is when A and M have equal bit 7 and the
result's differs (R106). -/
def Obligations.AdcOverflowIsSignedOverflow : Prop :=
  (∀ v, OverflowsSigned (.adcImm v) (.immediate v)) ∧
  (∀ v, OverflowsSigned (.adcZp v) (.memory (.zeroPage v))) ∧
  (∀ v, OverflowsSigned (.adcAbs v) (.memory (.absolute v))) ∧
  (∀ v, OverflowsSigned (.adcAbsX v) (.memory (.absoluteX v))) ∧
  (∀ v, OverflowsSigned (.adcAbsY v) (.memory (.absoluteY v))) ∧
  (∀ v, OverflowsSigned (.adcIndY v) (.memory (.indirectIndexedY v)))

/-- CMP in its six forms: Z, N, C from A and M; A, V and everything else kept (R103; that CMP compares A is the spec's decision D6, assumption log 15). -/
def Obligations.CmpComparesAccumulator : Prop :=
  (∀ v, Compares State.a 0xC9 (.cmpImm v) (.immediate v)) ∧
  (∀ v, Compares State.a 0xC5 (.cmpZp v) (.memory (.zeroPage v))) ∧
  (∀ v, Compares State.a 0xCD (.cmpAbs v) (.memory (.absolute v))) ∧
  (∀ v, Compares State.a 0xDD (.cmpAbsX v) (.memory (.absoluteX v))) ∧
  (∀ v, Compares State.a 0xD9 (.cmpAbsY v) (.memory (.absoluteY v))) ∧
  (∀ v, Compares State.a 0xD1 (.cmpIndY v) (.memory (.indirectIndexedY v)))

/-- CPY in its three forms: Z, N, C from Y and M; Y, V and everything else kept (R104). -/
def Obligations.CpyComparesY : Prop :=
  (∀ v, Compares State.y 0xC0 (.cpyImm v) (.immediate v)) ∧
  (∀ v, Compares State.y 0xC4 (.cpyZp v) (.memory (.zeroPage v))) ∧
  (∀ v, Compares State.y 0xCC (.cpyAbs v) (.memory (.absolute v)))

/-- INX: X plus one modulo 256, Z and N from the result; everything else kept (R107). -/
def Obligations.InxIncrementsX : Prop :=
  Instr.inx.opcode = 0xE8 ∧ ∀ s, ∃ t, exec .inx s = .next t ∧
    t.x.toNat = (s.x.toNat + 1) % 256 ∧ t.y = s.y ∧ Counts t.x s t

/-- INY: Y plus one modulo 256, Z and N from the result; everything else kept (R108). -/
def Obligations.InyIncrementsY : Prop :=
  Instr.iny.opcode = 0xC8 ∧ ∀ s, ∃ t, exec .iny s = .next t ∧
    t.y.toNat = (s.y.toNat + 1) % 256 ∧ t.x = s.x ∧ Counts t.y s t

/-- DEX: X minus one modulo 256, Z and N from the result; everything else kept (R109). -/
def Obligations.DexDecrementsX : Prop :=
  Instr.dex.opcode = 0xCA ∧ ∀ s, ∃ t, exec .dex s = .next t ∧
    t.x.toNat = (s.x.toNat + 255) % 256 ∧ t.y = s.y ∧ Counts t.x s t

/-! ### Control transfer -/

/-- JMP: PC is the operand; everything else kept (R110). -/
def Obligations.JmpGoesToOperand : Prop :=
  ∀ (addr : Word), (Instr.jmp addr).opcode = 0x4C ∧ ∀ s, ∃ t, exec (.jmp addr) s = .next t ∧
    t.pc = addr ∧ t.sp = s.sp ∧ KeepsRegisters s t ∧ SameMemory s t ∧ t.cycles = s.cycles

/-- JSR: the address before the following instruction's is pushed, its high byte at `0x0100 + SP` and its low byte
one below, wrapping within page 1; SP drops by two modulo 256; PC is the operand; everything else kept (R111). -/
def Obligations.JsrPushesReturnAddress : Prop :=
  ∀ (addr : Word), (Instr.jsr addr).opcode = 0x20 ∧ ∀ (s : State) (high low : Word) (ret : Nat),
    high = BitVec.ofNat 16 (256 + s.sp.toNat) →
    low = BitVec.ofNat 16 (256 + (s.sp.toNat + 255) % 256) →
    ret = (s.pc.toNat + 65535) % 65536 →
    ∃ t, exec (.jsr addr) s = .next t ∧
      t.pc = addr ∧ t.sp.toNat = (s.sp.toNat + 254) % 256 ∧
      Stored s t high (BitVec.ofNat 8 (ret / 256)) ∧ Stored s t low (BitVec.ofNat 8 (ret % 256)) ∧
      SameMemoryBut [high, low] s t ∧ KeepsRegisters s t ∧ t.cycles = s.cycles

/-- RTS: SP rises by two modulo 256 and PC is one more than the address whose low byte is read at the first
incremented SP and high byte at the second; everything else kept (R112). -/
def Obligations.RtsReturnsToPulledAddress : Prop :=
  Instr.rts.opcode = 0x60 ∧ ∀ (s : State) (lo hi : Nat),
    lo = (s.read (BitVec.ofNat 16 (256 + (s.sp.toNat + 1) % 256))).toNat →
    hi = (s.read (BitVec.ofNat 16 (256 + (s.sp.toNat + 2) % 256))).toNat →
    ∃ t, exec .rts s = .next t ∧
      t.pc.toNat = (hi * 256 + lo + 1) % 65536 ∧ t.sp.toNat = (s.sp.toNat + 2) % 256 ∧
      KeepsRegisters s t ∧ SameMemory s t ∧ t.cycles = s.cycles

/-- After a JSR whose two pushes are not dropped, an RTS in any state with the SP and the two stack bytes as the
JSR left them returns to the instruction after the JSR and restores SP (R112, R116). -/
def Obligations.RtsReturnsFromJsr : Prop :=
  ∀ (s : State) (addr : Word),
    ¬ StoreDropped s.platform (BitVec.ofNat 16 (256 + s.sp.toNat)) →
    ¬ StoreDropped s.platform (BitVec.ofNat 16 (256 + (s.sp.toNat + 255) % 256)) →
    ∃ t, exec (.jsr addr) s = .next t ∧ ∀ u : State,
      u.sp = t.sp →
      (∀ k, k = 1 ∨ k = 2 → u.read (BitVec.ofNat 16 (256 + (u.sp.toNat + k) % 256)) =
        t.read (BitVec.ofNat 16 (256 + (u.sp.toNat + k) % 256))) →
      ∃ w, exec .rts u = .next w ∧ w.pc = s.pc ∧ w.sp = s.sp

/-- BEQ: with Z set, PC is PC-after-fetch plus the signed offset modulo 65536, at a cost of one cycle and one more
when the high byte changes; with Z clear PC and cycles are kept; no flag and nothing else is written (R91, R93, R113). -/
def Obligations.BeqBranchesOnZ : Prop :=
  ∀ (off : Byte), (Instr.beq off).opcode = 0xF0 ∧ ∀ s, ∃ t, exec (.beq off) s = .next t ∧
    (s.p.z = true → (t.pc.toNat : Int) = ((s.pc.toNat : Int) + off.toInt) % 65536 ∧
      (t.pc.toNat / 256 = s.pc.toNat / 256 → t.cycles = s.cycles + 1) ∧
      (t.pc.toNat / 256 ≠ s.pc.toNat / 256 → t.cycles = s.cycles + 2)) ∧
    (s.p.z = false → t.pc = s.pc ∧ t.cycles = s.cycles) ∧
    t.sp = s.sp ∧ KeepsRegisters s t ∧ SameMemory s t

/-- NOP changes nothing (R114). -/
def Obligations.NopChangesNothing : Prop :=
  Instr.nop.opcode = 0xEA ∧ ∀ s, exec .nop s = .next s

/-! ### Who writes what -/

/-- A is written only by LDA and ADC, X only by LDX, INX and DEX, Y only by LDY and INY, SP only by JSR and RTS, and
PC, beyond the fetches, only by JMP, JSR, RTS and a taken BEQ (R14 to R18, R96). -/
def Obligations.RegisterWriters : Prop :=
  ∀ (i : Instr) (s : State), ∃ t, exec i s = .next t ∧
    (t.a ≠ s.a → i.mnemonic = .lda ∨ i.mnemonic = .adc) ∧
    (t.x ≠ s.x → i.mnemonic = .ldx ∨ i.mnemonic = .inx ∨ i.mnemonic = .dex) ∧
    (t.y ≠ s.y → i.mnemonic = .ldy ∨ i.mnemonic = .iny) ∧
    (t.sp ≠ s.sp → i.mnemonic = .jsr ∨ i.mnemonic = .rts) ∧
    (t.pc ≠ s.pc → TransfersControl i s)

/-- N and Z are written only by LDA, LDX, LDY, ADC, CMP, CPY, INX, INY and DEX, V only by ADC, C only by ADC, CMP and
CPY, and B, D and I by no instruction (R19, R21 to R27). -/
def Obligations.FlagWriters : Prop :=
  ∀ (i : Instr) (s : State), ∃ t, exec i s = .next t ∧
    (t.p.n ≠ s.p.n ∨ t.p.z ≠ s.p.z →
      i.mnemonic ∈ [.lda, .ldx, .ldy, .adc, .cmp, .cpy, .inx, .iny, .dex]) ∧
    (t.p.v ≠ s.p.v → i.mnemonic = .adc) ∧
    (t.p.c ≠ s.p.c → i.mnemonic = .adc ∨ i.mnemonic = .cmp ∨ i.mnemonic = .cpy) ∧
    t.p.b = s.p.b ∧ t.p.d = s.p.d ∧ t.p.i = s.p.i

/-- Memory is written only by STA, STX and JSR (R43). -/
def Obligations.MemoryWriters : Prop :=
  ∀ (i : Instr) (s : State), ∃ t, exec i s = .next t ∧
    (¬ SameMemory s t → i.mnemonic = .sta ∨ i.mnemonic = .stx ∨ i.mnemonic = .jsr)

/-- The flags N, V, B, D and I are read by no instruction: two states that differ only in them step alike, to states
that differ only in them (R19, R23, R24, R26, R27). -/
def Obligations.UnreadFlagsNeverInfluence : Prop :=
  ∀ (s s' t : State), SameButUnreadFlags s s' → step s = .next t →
    ∃ t', step s' = .next t' ∧ SameButUnreadFlags t t'

/-- The cycle counter is read by nothing: with a different count the same step happens, to the same state but for
the count, which keeps its difference (R30, R141). -/
def Obligations.CyclesNeverInfluence : Prop :=
  ∀ (s : State) (n : Nat), SameButCycles n (step s) (step { s with cycles := s.cycles + n })

/-! ### The status byte -/

/-- P is N V – B D I Z C from bit 7 to bit 0, and bit 5 reads 1 (R19, R20). -/
def Obligations.StatusByteLayout : Prop :=
  ∀ p : Status,
    p.toByte.getLsbD 7 = p.n ∧ p.toByte.getLsbD 6 = p.v ∧ p.toByte.getLsbD 5 = true ∧ p.toByte.getLsbD 4 = p.b ∧
    p.toByte.getLsbD 3 = p.d ∧ p.toByte.getLsbD 2 = p.i ∧ p.toByte.getLsbD 1 = p.z ∧ p.toByte.getLsbD 0 = p.c

/-! ### Memory -/

/-- `MemWrite(addr, 1, v)` leaves `v mod 256` at `addr`, except in the font ROM under ROM_WRITE_POLICY = ignore, where
it has no effect at all; it changes no other byte and nothing but memory (R37; the dropped store is the spec's
decision D10, assumption log 3). -/
def Obligations.MemWriteStoresTheByte : Prop :=
  ∀ (s : State) (addr : Word) (v : Nat),
    (StoreDropped s.platform addr → s.writeNat addr v = s) ∧
    (¬ StoreDropped s.platform addr →
      ((s.writeNat addr v).read addr).toNat = v % 256 ∧ SameMemoryBut [addr] s (s.writeNat addr v) ∧
        s.writeNat addr v = { s with mem := (s.writeNat addr v).mem })

/-- Under ROM_WRITE_POLICY = ignore no command but `reset`, a step of the core included, changes a byte of the font
ROM region, and `reset` puts FONT_DATA there (R40, R132; the spec's decisions D10, D11, assumption log 3, 4). -/
def Obligations.FontRomIsImmutable : Prop :=
  ∀ (c : Command) (s t : State), s.platform.romWritePolicy = .ignore → s.platform.fontFits →
    command c s = .next t → ∀ a, InFontRom s.platform a →
      (c ≠ .reset → t.read a = s.read a) ∧
      (c = .reset → s.platform.fontData[a.toNat - s.platform.fontBase]? = some (t.read a))

/-- Every step keeps the invariant: memory in canonical form, legal parameters, font ROM intact (R40). The canonical form
is the model's representation of the memory (assumption log 11), and that the video range lies in the memory is its
reading (assumption log 5). -/
def Obligations.StepKeepsInvariant : Prop :=
  ∀ s t : State, s.Inv → step s = .next t → t.Inv

/-- Every host command keeps the invariant (R33, R40, R55, R132). The canonical form is the model's representation of the
memory (assumption log 11), and that the video range lies in the memory is its reading (assumption log 5). -/
def Obligations.CommandKeepsInvariant : Prop :=
  ∀ (c : Command) (s t : State), s.Inv → command c s = .next t → t.Inv

/-- The invariant holds after reset, for all legal parameters, those of `State.reset` among them (R132). The canonical
form is the model's representation of the memory (assumption log 11), that the video range lies in the memory is its
reading (assumption log 5), and the parameters of `State.reset` are its choice (assumption log 4, 5). -/
def Obligations.ResetHasInvariant : Prop :=
  (∀ p : Platform, p.WellFormed → (State.resetWith p).Inv) ∧ State.reset.Inv

/-! ### The host's commands -/

/-- `reset()` in any run state leaves every register at its reset value, P = 0x24, the run state Idle, cycles 0, every
byte outside the font ROM 0x00 and FONT_DATA inside, and keeps the parameters (R132, R133; the order of reset is the spec's decision D12, assumption log 12). -/
def Obligations.ResetLeavesResetValues : Prop :=
  ∀ s : State, s.platform.fontFits → ∃ t, command .reset s = .next t ∧
    t.a = 0x00 ∧ t.x = 0x00 ∧ t.y = 0x00 ∧ t.sp = 0xFF ∧ t.p.toByte = 0x24 ∧ t.pc = 0x0000 ∧
    t.runState = .idle ∧ t.cycles = 0 ∧ t.platform = s.platform ∧
    (∀ a : Word, ¬ InFontRom s.platform a → t.read a = 0x00) ∧
    (∀ a : Word, InFontRom s.platform a →
      s.platform.fontData[a.toNat - s.platform.fontBase]? = some (t.read a))

/-- `State.reset` is the reset state with the parameters of `Config.platform`: the register values of R133, and
0x00 at every address, since the model's own choice of parameters has an empty font ROM (assumption log 4). -/
def Obligations.ResetStateHasResetValues : Prop :=
  State.reset.a = 0x00 ∧ State.reset.x = 0x00 ∧ State.reset.y = 0x00 ∧ State.reset.sp = 0xFF ∧
  State.reset.p.toByte = 0x24 ∧ State.reset.pc = 0x0000 ∧ State.reset.runState = .idle ∧
  State.reset.cycles = 0 ∧ State.reset.platform = Config.platform ∧ ∀ a : Word, State.reset.read a = 0x00

/-- `run()` enters Running from Idle, `stop()` forces Running to Idle, each changes the run state alone, and neither
has an effect in the other states (R33; the other states are the spec's decision D9, assumption log 9). That the
command changes the run state alone, the repeated stepping of `run()` being `runLoop`, is the model's choice
(assumption log 13). -/
def Obligations.RunAndStopChangeRunStateOnly : Prop :=
  ∀ s : State,
    (s.runState = .idle → command .run s = .next { s with runState := .running } ∧ command .stop s = .next s) ∧
    (s.runState = .running → command .run s = .next s ∧ command .stop s = .next { s with runState := .idle }) ∧
    (∀ r, s.runState = .halted r →
      command .run s = .next s ∧ command .stop s = .next s ∧ command .step s = .next s)

/-- `Halted` is left only by `reset()`, which then ends Idle (R123; the spec's decision D9, assumption log 9). -/
def Obligations.OnlyResetLeavesHalted : Prop :=
  ∀ (c : Command) (s : State) (r : HaltReason), s.runState = .halted r →
    ∃ t, command c s = .next t ∧ (t.runState ≠ s.runState ↔ c = .reset) ∧ (c = .reset → t.runState = .idle)

/-- `loadProgram`: RomOverlap when the range meets the font ROM, else CapacityExceeded when it passes 0xFFFF, memory
unchanged in both; else Ok, with each byte modulo 256 in its place and every other byte and everything else
unchanged (R55; the order of the checks and the empty load are the spec's decision D13, assumption log 17). -/
def Obligations.LoadProgramLoadsOrRejects : Prop :=
  ∀ (s : State) (bytes : List Nat) (addr : Word) (overlaps : Prop),
    (overlaps ↔ ∃ k, (addr.toNat ≤ k ∧ k < addr.toNat + bytes.length) ∧
      (s.platform.fontBase ≤ k ∧ k < s.platform.fontBase + s.platform.fontData.length)) →
    (overlaps → s.loadProgram bytes addr = (.romOverlap, s)) ∧
    (¬ overlaps → addr.toNat + bytes.length > 65536 → s.loadProgram bytes addr = (.capacityExceeded, s)) ∧
    (¬ overlaps → addr.toNat + bytes.length ≤ 65536 → ∃ t, s.loadProgram bytes addr = (.ok, t) ∧
      t = { s with mem := t.mem } ∧
      (∀ (k : Nat) (b : Nat), bytes[k]? = some b → (t.read (addr + BitVec.ofNat 16 k)).toNat = b % 256) ∧
      (∀ a : Word, a.toNat < addr.toNat ∨ addr.toNat + bytes.length ≤ a.toNat → t.read a = s.read a))

/-- Pausing the run loop after any number of instruction boundaries and going on is the same run (R33, R139). -/
def Obligations.PauseChangesNoState : Prop :=
  ∀ (m n : Nat) (s t : State), runLoop m s = .next t → runLoop (m + n) s = runLoop n t

/-! ### The assembler -/

/-- The offset byte the assembler emits for a branch at `line` to `target` makes a taken BEQ there go to `target`, and
a target outside −128..127 of the following instruction has none (R77, R91). -/
def Obligations.AssembledBranchReachesTarget : Prop :=
  ∀ (s : State) (line target : Word) (off : Byte),
    (Asm.branchOffset line.toNat target.toNat = some off → s.pc = line + 2 → s.p.z = true →
      ∃ t, exec (.beq off) s = .next t ∧ t.pc = target) ∧
    (Asm.branchOffset line.toNat target.toNat = none ↔
      (target.toNat : Int) - (line.toNat + 2) < -128 ∨ 127 < (target.toNat : Int) - (line.toNat + 2))

/-! ### The instruction table -/

/-- The 44 rows of R62's table are a legal table, and they are exactly the opcode byte, mnemonic and mode of each
instruction, whatever its operand (R62; the spec's decisions D3, D4, assumption log 1). -/
def Obligations.TableRowsAreTheInstructions : Prop :=
  OpcodeTable.r62.length = 44 ∧ OpcodeTable.r62.WellFormed ∧
    ∀ r : OpcodeRow, r ∈ OpcodeTable.r62 ↔ ∃ i : Instr, r = ⟨i.opcode, i.mnemonic, i.mode⟩

/-- Dispatch depends on the opcode byte alone: in any table, whether a byte is admitted, and to which instruction up to
its operand, does not depend on the bytes after it; two byte sequences with the same opcode that decode to instructions
decode to the same mnemonic and mode (R66, R82). -/
def Obligations.DispatchDependsOnOpcodeAlone : Prop :=
  ∀ (t : OpcodeTable) (op : Byte) (bytes bytes' : List Byte),
    (decode t (op :: bytes) = .unknownOpcode → decode t (op :: bytes') = .unknownOpcode) ∧
    (decode t (op :: bytes) = .refusedTier op → decode t (op :: bytes') = .refusedTier op) ∧
    (∀ i j rest rest', decode t (op :: bytes) = .instr i rest → decode t (op :: bytes') = .instr j rest' →
      i.mnemonic = j.mnemonic ∧ i.mode = j.mode)
end

