-- ==== Sys2Proof/Laws/Memory.lean ====
section
/-! SUPPORT. The laws of the memory: read after write, loads, and the canonical form kept by every operation. -/

namespace Sys2Proof.Machine

@[simp] theorem Memory.read_nil (a : Nat) : Memory.read [] a = 0 := rfl

theorem Memory.read_cons (k : Nat) (v : Byte) (m : Memory) (a : Nat) :
    Memory.read ((k, v) :: m) a = if k = a then v else Memory.read m a := rfl

theorem Memory.read_erase (m : Memory) (a b : Nat) :
    (m.erase a).read b = if b = a then 0 else m.read b := by
  induction m with
  | nil => simp [Memory.erase]
  | cons e m ih => simp only [Memory.erase]; grind [Memory.read_cons]

theorem Memory.read_insert_erase (m : Memory) (a b : Nat) (v : Byte) :
    ((m.erase a).insert a v).read b = if b = a then v else m.read b := by
  induction m with
  | nil => simp only [Memory.erase, Memory.insert, Memory.read_cons]; grind
  | cons e m ih =>
    have h := Memory.read_erase m a b
    simp only [Memory.erase]
    grind [Memory.insert, Memory.read_cons]

/-- Reading after a write: the byte written at its address, what was there elsewhere (R36, R37). -/
theorem Memory.read_write (m : Memory) (a b : Nat) (v : Byte) :
    (m.write a v).read b = if b = a then v else m.read b := by
  unfold Memory.write
  split
  · rename_i h; rw [Memory.read_erase, h]
  · exact Memory.read_insert_erase m a b v

@[simp] theorem Memory.read_write_same (m : Memory) (a : Nat) (v : Byte) : (m.write a v).read a = v := by
  simp [Memory.read_write]

theorem Memory.read_write_ne (m : Memory) {a b : Nat} (v : Byte) (h : b ≠ a) :
    (m.write a v).read b = m.read b := by
  simp [Memory.read_write, h]

theorem Memory.wfFrom_cons (lo k : Nat) (v : Byte) (m : Memory) :
    Memory.wfFrom lo ((k, v) :: m) = true ↔ lo ≤ k ∧ k < 65536 ∧ v ≠ 0 ∧ Memory.wfFrom (k + 1) m = true := by
  simp only [Memory.wfFrom, Bool.and_eq_true, decide_eq_true_eq, bne_iff_ne, and_assoc]

theorem Memory.wfFrom_mono {lo lo' : Nat} {m : Memory} (h : lo' ≤ lo) (hm : Memory.wfFrom lo m = true) :
    Memory.wfFrom lo' m = true := by
  cases m with
  | nil => rfl
  | cons e m => rw [Memory.wfFrom_cons] at hm ⊢; exact ⟨by omega, hm.2⟩

theorem Memory.wfFrom_erase {lo : Nat} {m : Memory} (a : Nat) (hm : Memory.wfFrom lo m = true) :
    Memory.wfFrom lo (m.erase a) = true := by
  induction m generalizing lo with
  | nil => rfl
  | cons e m ih =>
    rw [Memory.wfFrom_cons] at hm
    unfold Memory.erase
    split
    · exact ih (Memory.wfFrom_mono (by omega) hm.2.2.2)
    · rw [Memory.wfFrom_cons]; exact ⟨hm.1, hm.2.1, hm.2.2.1, ih hm.2.2.2⟩

theorem Memory.wfFrom_insert_erase {lo : Nat} {m : Memory} {a : Nat} {v : Byte} (ha : a < 65536) (hlo : lo ≤ a)
    (hv : v ≠ 0) (hm : Memory.wfFrom lo m = true) : Memory.wfFrom lo ((m.erase a).insert a v) = true := by
  induction m generalizing lo with
  | nil => simp only [Memory.erase, Memory.insert]; rw [Memory.wfFrom_cons]; exact ⟨hlo, ha, hv, rfl⟩
  | cons e m ih =>
    obtain ⟨k, w⟩ := e
    rw [Memory.wfFrom_cons] at hm
    obtain ⟨h1, h2, h3, h4⟩ := hm
    unfold Memory.erase
    split
    · exact ih hlo (Memory.wfFrom_mono (by omega) h4)
    · unfold Memory.insert
      split
      · rw [Memory.wfFrom_cons]; exact ⟨h1, h2, h3, ih (by omega) h4⟩
      · rw [Memory.wfFrom_cons, Memory.wfFrom_cons]
        exact ⟨hlo, ha, hv, by omega, h2, h3, Memory.wfFrom_erase a h4⟩

@[simp] theorem Memory.wf_nil : Memory.wf [] = true := rfl

/-- A write inside the memory keeps the canonical form. -/
theorem Memory.wf_write {m : Memory} {a : Nat} (v : Byte) (ha : a < 65536) (hm : m.wf = true) :
    (m.write a v).wf = true := by
  unfold Memory.write Memory.wf
  split
  · exact Memory.wfFrom_erase a hm
  · exact Memory.wfFrom_insert_erase ha (Nat.zero_le a) ‹_› hm

/-- A load inside the memory keeps the canonical form. -/
theorem Memory.wf_load {m : Memory} {a : Nat} {bs : List Byte} (ha : a + bs.length ≤ 65536) (hm : m.wf = true) :
    (m.load a bs).wf = true := by
  induction bs generalizing m a with
  | nil => exact hm
  | cons b bs ih =>
    simp only [List.length_cons] at ha
    exact ih (by omega) (Memory.wf_write b (by omega) hm)

/-- A load leaves every byte outside its range. -/
theorem Memory.read_load_outside (m : Memory) (a b : Nat) (bs : List Byte) (h : b < a ∨ a + bs.length ≤ b) :
    (m.load a bs).read b = m.read b := by
  induction bs generalizing m a with
  | nil => rfl
  | cons c bs ih =>
    simp only [List.length_cons] at h
    rw [Memory.load, ih _ _ (by omega), Memory.read_write_ne _ _ (by omega)]

/-- A load puts its bytes in their order. -/
theorem Memory.read_load_inside (m : Memory) (a k : Nat) (bs : List Byte) (b : Byte) (h : bs[k]? = some b) :
    (m.load a bs).read (a + k) = b := by
  induction bs generalizing m a k with
  | nil => simp at h
  | cons c bs ih =>
    cases k with
    | zero =>
      rw [Memory.load, Memory.read_load_outside _ _ _ _ (by omega)]
      simpa using h
    | succ k =>
      rw [Memory.load, show a + (k + 1) = a + 1 + k by omega]
      exact ih _ _ _ (by simpa using h)

/-- Two memories in canonical form that read the same everywhere are the same list: the form is canonical. -/
theorem Memory.ext_of_read {m n : Memory} {lo : Nat} (hm : Memory.wfFrom lo m = true) (hn : Memory.wfFrom lo n = true)
    (h : ∀ a, m.read a = n.read a) : m = n := by
  have low : ∀ {l : Memory} {lo a : Nat}, Memory.wfFrom lo l = true → a < lo → l.read a = 0 := by
    intro l
    induction l with
    | nil => intros; rfl
    | cons e l ih =>
      intro lo a hl ha
      rw [Memory.wfFrom_cons] at hl
      rw [Memory.read_cons, if_neg (by omega)]
      exact ih hl.2.2.2 (by omega)
  induction m generalizing n lo with
  | nil =>
    cases n with
    | nil => rfl
    | cons e n =>
      rw [Memory.wfFrom_cons] at hn
      have := h e.1
      rw [Memory.read_cons, if_pos rfl] at this
      exact absurd this.symm hn.2.2.1
  | cons e m ih =>
    obtain ⟨k, v⟩ := e
    rw [Memory.wfFrom_cons] at hm
    cases n with
    | nil =>
      have := h k
      rw [Memory.read_cons, if_pos rfl] at this
      exact absurd this hm.2.2.1
    | cons f n =>
      obtain ⟨j, w⟩ := f
      rw [Memory.wfFrom_cons] at hn
      have hk := h k
      have hj := h j
      simp only [Memory.read_cons] at hk hj
      rcases Nat.lt_trichotomy k j with hlt | heq | hgt
      · rw [if_pos trivial, if_neg (by omega), low hn.2.2.2 (by omega)] at hk
        exact absurd hk hm.2.2.1
      · subst heq
        simp only [if_true] at hk
        subst hk
        congr 1
        refine ih hm.2.2.2 hn.2.2.2 fun a => ?_
        have ha := h a
        simp only [Memory.read_cons] at ha
        by_cases hak : k = a
        · subst hak; rw [low hm.2.2.2 (by omega), low hn.2.2.2 (by omega)]
        · simpa [hak] using ha
      · rw [if_neg (by omega), if_pos trivial, low hm.2.2.2 (by omega)] at hj
        exact absurd hj.symm hn.2.2.1

end Sys2Proof.Machine
end

