-- ==== Sys2Proof/Laws/State.lean ====
section
/-! SUPPORT. One lemma for each field under each update of the state, so that no proof unfolds an update. -/

namespace Sys2Proof.Machine

section
variable (s : State) (a : Word) (v : Byte) (n : Nat)

@[simp] theorem State.setZN_a : (s.setZN v).a = s.a := rfl
@[simp] theorem State.setZN_x : (s.setZN v).x = s.x := rfl
@[simp] theorem State.setZN_y : (s.setZN v).y = s.y := rfl
@[simp] theorem State.setZN_sp : (s.setZN v).sp = s.sp := rfl
@[simp] theorem State.setZN_p : (s.setZN v).p = s.p.setZN v := rfl
@[simp] theorem State.setZN_pc : (s.setZN v).pc = s.pc := rfl
@[simp] theorem State.setZN_mem : (s.setZN v).mem = s.mem := rfl
@[simp] theorem State.setZN_runState : (s.setZN v).runState = s.runState := rfl
@[simp] theorem State.setZN_cycles : (s.setZN v).cycles = s.cycles := rfl
@[simp] theorem State.setZN_platform : (s.setZN v).platform = s.platform := rfl

@[simp] theorem State.addCycles_a : (s.addCycles n).a = s.a := rfl
@[simp] theorem State.addCycles_x : (s.addCycles n).x = s.x := rfl
@[simp] theorem State.addCycles_y : (s.addCycles n).y = s.y := rfl
@[simp] theorem State.addCycles_sp : (s.addCycles n).sp = s.sp := rfl
@[simp] theorem State.addCycles_p : (s.addCycles n).p = s.p := rfl
@[simp] theorem State.addCycles_pc : (s.addCycles n).pc = s.pc := rfl
@[simp] theorem State.addCycles_mem : (s.addCycles n).mem = s.mem := rfl
@[simp] theorem State.addCycles_runState : (s.addCycles n).runState = s.runState := rfl
@[simp] theorem State.addCycles_cycles : (s.addCycles n).cycles = s.cycles + n := rfl
@[simp] theorem State.addCycles_platform : (s.addCycles n).platform = s.platform := rfl

@[simp] theorem State.haltUnknownOpcode_a : (s.haltUnknownOpcode).a = s.a := rfl
@[simp] theorem State.haltUnknownOpcode_x : (s.haltUnknownOpcode).x = s.x := rfl
@[simp] theorem State.haltUnknownOpcode_y : (s.haltUnknownOpcode).y = s.y := rfl
@[simp] theorem State.haltUnknownOpcode_sp : (s.haltUnknownOpcode).sp = s.sp := rfl
@[simp] theorem State.haltUnknownOpcode_p : (s.haltUnknownOpcode).p = s.p := rfl
@[simp] theorem State.haltUnknownOpcode_pc : (s.haltUnknownOpcode).pc = s.pc := rfl
@[simp] theorem State.haltUnknownOpcode_mem : (s.haltUnknownOpcode).mem = s.mem := rfl
@[simp] theorem State.haltUnknownOpcode_runState : (s.haltUnknownOpcode).runState = .halted .unknownOpcode := rfl
@[simp] theorem State.haltUnknownOpcode_cycles : (s.haltUnknownOpcode).cycles = s.cycles + 1 := rfl
@[simp] theorem State.haltUnknownOpcode_platform : (s.haltUnknownOpcode).platform = s.platform := rfl

@[simp] theorem State.fetch_a : (s.fetch.2).a = s.a := rfl
@[simp] theorem State.fetch_x : (s.fetch.2).x = s.x := rfl
@[simp] theorem State.fetch_y : (s.fetch.2).y = s.y := rfl
@[simp] theorem State.fetch_sp : (s.fetch.2).sp = s.sp := rfl
@[simp] theorem State.fetch_p : (s.fetch.2).p = s.p := rfl
@[simp] theorem State.fetch_pc : (s.fetch.2).pc = s.pc + 1 := rfl
@[simp] theorem State.fetch_mem : (s.fetch.2).mem = s.mem := rfl
@[simp] theorem State.fetch_runState : (s.fetch.2).runState = s.runState := rfl
@[simp] theorem State.fetch_cycles : (s.fetch.2).cycles = s.cycles := rfl
@[simp] theorem State.fetch_platform : (s.fetch.2).platform = s.platform := rfl

@[simp] theorem State.pull_a : (s.pull.2).a = s.a := rfl
@[simp] theorem State.pull_x : (s.pull.2).x = s.x := rfl
@[simp] theorem State.pull_y : (s.pull.2).y = s.y := rfl
@[simp] theorem State.pull_sp : (s.pull.2).sp = s.sp + 1 := rfl
@[simp] theorem State.pull_p : (s.pull.2).p = s.p := rfl
@[simp] theorem State.pull_pc : (s.pull.2).pc = s.pc := rfl
@[simp] theorem State.pull_mem : (s.pull.2).mem = s.mem := rfl
@[simp] theorem State.pull_runState : (s.pull.2).runState = s.runState := rfl
@[simp] theorem State.pull_cycles : (s.pull.2).cycles = s.cycles := rfl
@[simp] theorem State.pull_platform : (s.pull.2).platform = s.platform := rfl

@[simp] theorem State.fetch_value : s.fetch.1 = s.read s.pc := rfl

@[simp] theorem State.pull_value : s.pull.1 = s.read (stackAddress (s.sp + 1)) := rfl

@[simp] theorem State.write_a : (s.write a v).a = s.a := by
  unfold State.write; split <;> rfl
@[simp] theorem State.write_x : (s.write a v).x = s.x := by
  unfold State.write; split <;> rfl
@[simp] theorem State.write_y : (s.write a v).y = s.y := by
  unfold State.write; split <;> rfl
@[simp] theorem State.write_sp : (s.write a v).sp = s.sp := by
  unfold State.write; split <;> rfl
@[simp] theorem State.write_p : (s.write a v).p = s.p := by
  unfold State.write; split <;> rfl
@[simp] theorem State.write_pc : (s.write a v).pc = s.pc := by
  unfold State.write; split <;> rfl
@[simp] theorem State.write_runState : (s.write a v).runState = s.runState := by
  unfold State.write; split <;> rfl
@[simp] theorem State.write_cycles : (s.write a v).cycles = s.cycles := by
  unfold State.write; split <;> rfl
@[simp] theorem State.write_platform : (s.write a v).platform = s.platform := by
  unfold State.write; split <;> rfl

@[simp] theorem State.push_a : (s.push v).a = s.a := by
  simp [State.push]
@[simp] theorem State.push_x : (s.push v).x = s.x := by
  simp [State.push]
@[simp] theorem State.push_y : (s.push v).y = s.y := by
  simp [State.push]
@[simp] theorem State.push_sp : (s.push v).sp = s.sp - 1 := by
  simp [State.push]
@[simp] theorem State.push_p : (s.push v).p = s.p := by
  simp [State.push]
@[simp] theorem State.push_pc : (s.push v).pc = s.pc := by
  simp [State.push]
@[simp] theorem State.push_mem : (s.push v).mem = (s.write (stackAddress s.sp) v).mem := by
  simp [State.push]
@[simp] theorem State.push_runState : (s.push v).runState = s.runState := by
  simp [State.push]
@[simp] theorem State.push_cycles : (s.push v).cycles = s.cycles := by
  simp [State.push]
@[simp] theorem State.push_platform : (s.push v).platform = s.platform := by
  simp [State.push]

@[simp] theorem State.hostReset_a : (s.hostReset).a = 0 := rfl
@[simp] theorem State.hostReset_x : (s.hostReset).x = 0 := rfl
@[simp] theorem State.hostReset_y : (s.hostReset).y = 0 := rfl
@[simp] theorem State.hostReset_sp : (s.hostReset).sp = 0xFF := rfl
@[simp] theorem State.hostReset_p : (s.hostReset).p = State.reset.p := rfl
@[simp] theorem State.hostReset_pc : (s.hostReset).pc = 0 := rfl
@[simp] theorem State.hostReset_mem : (s.hostReset).mem = s.platform.resetMemory := rfl
@[simp] theorem State.hostReset_runState : (s.hostReset).runState = .idle := rfl
@[simp] theorem State.hostReset_cycles : (s.hostReset).cycles = 0 := rfl
@[simp] theorem State.hostReset_platform : (s.hostReset).platform = s.platform := rfl

theorem State.read_of_mem {s t : State} (h : t.mem = s.mem) (a : Word) : t.read a = s.read a := by
  simp only [State.read, h]

@[simp] theorem State.setZN_read : (s.setZN v).read a = s.read a := rfl
@[simp] theorem State.addCycles_read : (s.addCycles n).read a = s.read a := rfl
@[simp] theorem State.haltUnknownOpcode_read : s.haltUnknownOpcode.read a = s.read a := rfl
@[simp] theorem State.fetch_read : s.fetch.2.read a = s.read a := rfl
@[simp] theorem State.pull_read : s.pull.2.read a = s.read a := rfl

end

section
variable (p : Status) (r m : Byte)

@[simp] theorem Status.setZN_n : (p.setZN r).n = negativeFlag r := rfl
@[simp] theorem Status.setZN_v : (p.setZN r).v = p.v := rfl
@[simp] theorem Status.setZN_b : (p.setZN r).b = p.b := rfl
@[simp] theorem Status.setZN_d : (p.setZN r).d = p.d := rfl
@[simp] theorem Status.setZN_i : (p.setZN r).i = p.i := rfl
@[simp] theorem Status.setZN_z : (p.setZN r).z = zeroFlag r := rfl
@[simp] theorem Status.setZN_c : (p.setZN r).c = p.c := rfl

@[simp] theorem Status.afterAdc_n : (p.afterAdc r m).n = negativeFlag (adcResult r m p.c) := rfl
@[simp] theorem Status.afterAdc_v : (p.afterAdc r m).v = adcOverflow r m (adcResult r m p.c) := rfl
@[simp] theorem Status.afterAdc_b : (p.afterAdc r m).b = p.b := rfl
@[simp] theorem Status.afterAdc_d : (p.afterAdc r m).d = p.d := rfl
@[simp] theorem Status.afterAdc_i : (p.afterAdc r m).i = p.i := rfl
@[simp] theorem Status.afterAdc_z : (p.afterAdc r m).z = zeroFlag (adcResult r m p.c) := rfl
@[simp] theorem Status.afterAdc_c : (p.afterAdc r m).c = adcCarry r m p.c := rfl

@[simp] theorem Status.afterCompare_n : (p.afterCompare r m).n = negativeFlag (r - m) := rfl
@[simp] theorem Status.afterCompare_v : (p.afterCompare r m).v = p.v := rfl
@[simp] theorem Status.afterCompare_b : (p.afterCompare r m).b = p.b := rfl
@[simp] theorem Status.afterCompare_d : (p.afterCompare r m).d = p.d := rfl
@[simp] theorem Status.afterCompare_i : (p.afterCompare r m).i = p.i := rfl
@[simp] theorem Status.afterCompare_z : (p.afterCompare r m).z = decide (r = m) := rfl
@[simp] theorem Status.afterCompare_c : (p.afterCompare r m).c = decide (r.toNat ≥ m.toNat) := rfl

end

end Sys2Proof.Machine
end

