-- ==== Sys2Proof/Laws/Ops.lean ====
section
/-! SUPPORT. One lemma for each shared operation that says everything it can do: helpers over bits, `MemWrite`,
the stack, the flags, fetching an instruction, and what every meaning's result looks like. -/

namespace Sys2Proof

theorem toNat_wordOf (hi lo : Byte) : (wordOf hi lo).toNat = hi.toNat * 256 + lo.toNat := by
  have h := lo.isLt
  simp only [wordOf, BitVec.toNat_append]
  rw [Nat.shiftLeft_eq, Nat.mul_comm, ← Nat.two_pow_add_eq_or_of_lt (i := 8) lo.isLt, Nat.mul_comm]

theorem toNat_hiByte (w : Word) : (hiByte w).toNat = w.toNat / 256 := by
  have h := w.isLt
  simp only [hiByte, BitVec.extractLsb'_toNat, Nat.shiftRight_eq_div_pow]
  omega

theorem toNat_loByte (w : Word) : (loByte w).toNat = w.toNat % 256 := by
  simp only [loByte, BitVec.extractLsb'_toNat, Nat.shiftRight_zero]

@[simp] theorem wordOf_hiByte_loByte (w : Word) : wordOf (hiByte w) (loByte w) = w := by
  apply BitVec.eq_of_toNat_eq
  rw [toNat_wordOf, toNat_hiByte, toNat_loByte]
  omega

@[simp] theorem hiByte_wordOf (hi lo : Byte) : hiByte (wordOf hi lo) = hi := by
  apply BitVec.eq_of_toNat_eq
  have h := lo.isLt
  rw [toNat_hiByte, toNat_wordOf]
  omega

@[simp] theorem loByte_wordOf (hi lo : Byte) : loByte (wordOf hi lo) = lo := by
  apply BitVec.eq_of_toNat_eq
  have h := lo.isLt
  rw [toNat_loByte, toNat_wordOf]
  omega

theorem toNat_zext16 (b : Byte) : (zext16 b).toNat = b.toNat := by
  have h := b.isLt
  simp only [zext16, BitVec.toNat_setWidth]
  omega

theorem Platform.inFont_iff (p : Platform) (a : Nat) :
    p.inFont a = true ↔ p.fontBase ≤ a ∧ a < p.fontBase + p.fontData.length := by
  simp [Platform.inFont, Platform.fontSize]

theorem Platform.overlapsFont_iff (p : Platform) (a n : Nat) :
    p.overlapsFont a n = true ↔ ∃ k, p.inFont k = true ∧ a ≤ k ∧ k < a + n := by
  simp only [Platform.overlapsFont, Bool.and_eq_true, decide_eq_true_eq, Platform.inFont_iff, Platform.fontSize]
  constructor
  · rintro ⟨⟨⟨h1, h2⟩, h3⟩, h4⟩
    rcases Nat.le_total a p.fontBase with h | h
    · exact ⟨p.fontBase, ⟨by omega, by omega⟩, h, h4⟩
    · exact ⟨a, ⟨h, h3⟩, by omega, by omega⟩
  · rintro ⟨k, ⟨h1, h2⟩, h3, h4⟩
    omega

namespace Machine

theorem dropsWrite_iff (p : Platform) (a : Word) : p.dropsWrite a.toNat = true ↔ StoreDropped p a := by
  simp [Platform.dropsWrite, Platform.inFont_iff, StoreDropped, InFontRom]

/-- `MemWrite`: nothing where the store is dropped, else the memory write. -/
theorem State.write_eq (s : State) (a : Word) (v : Byte) :
    s.write a v = if s.platform.dropsWrite a.toNat then s else { s with mem := s.mem.write a.toNat v } := rfl

/-- Reading after `MemWrite`. -/
theorem State.read_write (s : State) (a b : Word) (v : Byte) :
    (s.write a v).read b = if b = a ∧ s.platform.dropsWrite a.toNat = false then v else s.read b := by
  unfold State.write
  by_cases hd : s.platform.dropsWrite a.toNat = true
  · simp [hd]
  · simp only [hd, Bool.false_eq_true, if_false, State.read, Memory.read_write]
    by_cases h : b = a
    · simp [h]
    · have : b.toNat ≠ a.toNat := fun e => h (BitVec.eq_of_toNat_eq e)
      simp [h, this]

theorem State.read_write_ne (s : State) {a b : Word} (v : Byte) (h : b ≠ a) : (s.write a v).read b = s.read b := by
  simp [State.read_write, h]

/-- `MemWrite` stores its byte or is dropped. -/
theorem State.stored_write (s : State) (a : Word) (v : Byte) : Stored s (s.write a v) a v := by
  constructor <;> intro h <;> rw [← dropsWrite_iff] at h <;> simp [State.read_write, h]

@[simp] theorem State.push_read (s : State) (v : Byte) (b : Word) :
    (s.push v).read b = (s.write (stackAddress s.sp) v).read b := rfl

/-- `MemWrite` keeps the canonical form. -/
theorem State.wf_write {s : State} (a : Word) (v : Byte) (h : s.mem.wf = true) : (s.write a v).mem.wf = true := by
  unfold State.write
  split
  · exact h
  · exact Memory.wf_write v a.isLt h

/-- Stores and pushes neither read nor write the cycle counter or P. -/
theorem State.write_withCycles (s : State) (n : Nat) (a : Word) (v : Byte) :
    State.write { s with cycles := n } a v = { s.write a v with cycles := n } := by
  simp only [State.write]; split <;> rfl

theorem State.push_withCycles (s : State) (n : Nat) (v : Byte) :
    State.push { s with cycles := n } v = { s.push v with cycles := n } := by
  simp only [State.push, State.write]; split <;> rfl

theorem State.write_withP (s : State) (p : Status) (a : Word) (v : Byte) :
    State.write { s with p := p } a v = { s.write a v with p := p } := by
  simp only [State.write]; split <;> rfl

theorem State.push_withP (s : State) (p : Status) (v : Byte) :
    State.push { s with p := p } v = { s.push v with p := p } := by
  simp only [State.push, State.write]; split <;> rfl

theorem toNat_stackAddress (sp : Byte) : (stackAddress sp).toNat = 256 + sp.toNat := by
  revert sp; decide

theorem stackAddress_injective {p q : Byte} (h : stackAddress p = stackAddress q) : p = q := by
  have := congrArg BitVec.toNat h
  rw [toNat_stackAddress, toNat_stackAddress] at this
  exact BitVec.eq_of_toNat_eq (by omega)

theorem zeroFlag_iff (r : Byte) : zeroFlag r = true ↔ r.toNat = 0 := by
  simp only [zeroFlag, decide_eq_true_eq]
  exact ⟨fun h => by rw [h]; rfl, fun h => BitVec.eq_of_toNat_eq h⟩

theorem negativeFlag_iff (r : Byte) : negativeFlag r = true ↔ 128 ≤ r.toNat := by
  revert r; decide

theorem hasZNOf_setZN (p : Status) (r : Byte) : HasZNOf r (p.setZN r) :=
  ⟨zeroFlag_iff r, negativeFlag_iff r⟩

theorem toNat_indexed (base : Word) (index : Byte) :
    (indexed base index).toNat = (base.toNat + index.toNat) % 65536 := by
  simp [indexed, BitVec.toNat_add, toNat_zext16]

theorem hiByte_ne_iff (v w : Word) : hiByte v ≠ hiByte w ↔ v.toNat / 256 ≠ w.toNat / 256 := by
  rw [← toNat_hiByte, ← toNat_hiByte, not_iff_not]
  exact ⟨fun h => by rw [h], fun h => BitVec.eq_of_toNat_eq h⟩

/-- What fetching gives, in terms of the decoder: the instruction that the three bytes at PC decode to, and PC
moved past its length. -/
theorem State.fetchInstr_of_decode {s : State} {i : Instr} {rest : List Byte}
    (h : decode s.platform.opcodeTable (s.bytesAt s.pc 3) = .instr i rest) :
    s.fetchInstr = (.instr (s.read s.pc) i, { s with pc := s.pc + BitVec.ofNat 16 (3 - rest.length) }) := by
  simp only [State.bytesAt, decode] at h
  unfold State.fetchInstr
  simp only [State.fetch]
  generalize opcodeClass s.platform.opcodeTable (s.read s.pc) = c at h ⊢
  rcases c with (j | g | g) | - | - <;> simp only [reduceCtorEq] at h
  · cases h; rfl
  · cases h
    simp only [State.read, List.length_cons, List.length_nil, BitVec.add_assoc]; rfl
  · cases h
    simp only [State.read, List.length_nil, BitVec.add_assoc]; rfl

theorem State.fetchInstr_unknown {s : State} (h : opcodeClass s.platform.opcodeTable (s.read s.pc) = .unknownOpcode) :
    s.fetchInstr = (.unknownOpcode, { s with pc := s.pc + 1 }) := by
  simp [State.fetchInstr, State.fetch, h]

theorem State.fetchInstr_refused {s : State} (h : opcodeClass s.platform.opcodeTable (s.read s.pc) = .refusedTier) :
    s.fetchInstr = (.refusedTier (s.read s.pc), { s with pc := s.pc + 1 }) := by
  simp [State.fetchInstr, State.fetch, h]

/-- Fetching an admitted byte gives an instruction and moves only PC. -/
theorem State.fetchInstr_admitted {s : State} {f : InstrForm}
    (h : opcodeClass s.platform.opcodeTable (s.read s.pc) = .admitted f) :
    ∃ (i : Instr) (n : Word), s.fetchInstr = (.instr (s.read s.pc) i, { s with pc := s.pc + n }) := by
  unfold State.fetchInstr
  simp only [State.fetch, h]
  cases f with
  | noOperand i => exact ⟨i, 1, rfl⟩
  | byteOperand g => exact ⟨_, 2, by simp only [BitVec.add_assoc]; rfl⟩
  | wordOperand g => exact ⟨_, 3, by simp only [BitVec.add_assoc]; rfl⟩

/-- Fetching neither reads nor writes the cycle counter or P. -/
theorem State.fetchInstr_withCycles (s : State) (n : Nat) :
    State.fetchInstr { s with cycles := n } = (s.fetchInstr.1, { s.fetchInstr.2 with cycles := n }) := by
  have h (s' : State) (hm : s'.mem = s.mem) (a : Word) : s'.read a = s.read a := State.read_of_mem hm a
  simp only [State.fetchInstr, State.fetch]
  rw [h { s with cycles := n } rfl]
  rcases opcodeClass s.platform.opcodeTable (s.read s.pc) with (_ | _ | _) | _ | _ <;> rfl

theorem State.fetchInstr_withP (s : State) (p : Status) :
    State.fetchInstr { s with p := p } = (s.fetchInstr.1, { s.fetchInstr.2 with p := p }) := by
  have h (s' : State) (hm : s'.mem = s.mem) (a : Word) : s'.read a = s.read a := State.read_of_mem hm a
  simp only [State.fetchInstr, State.fetch]
  rw [h { s with p := p } rfl]
  rcases opcodeClass s.platform.opcodeTable (s.read s.pc) with (_ | _ | _) | _ | _ <;> rfl

/-- Fetching moves only PC, by at most three. -/
theorem State.fetchInstr_frame (s : State) :
    ∃ n ≤ 3, s.fetchInstr.2 = { s with pc := s.pc + BitVec.ofNat 16 n } := by
  simp only [State.fetchInstr, State.fetch]
  rcases opcodeClass s.platform.opcodeTable (s.read s.pc) with (_ | _ | _) | _ | _
  · exact ⟨1, by omega, rfl⟩
  · exact ⟨2, by omega, by simp only [BitVec.add_assoc]; rfl⟩
  · exact ⟨3, by omega, by simp only [BitVec.add_assoc]; rfl⟩
  · exact ⟨1, by omega, rfl⟩
  · exact ⟨1, by omega, rfl⟩

end Machine

end Sys2Proof
end

