-- ==== Sys2Proof/Laws/Decode.lean ====
section
/-! SUPPORT. What the opcode lookup can answer, said once for all tables, and how it fits the encoder. -/

namespace Sys2Proof

/-- The form of a mnemonic and mode makes instructions of that mnemonic and mode, and completes to one exactly on its
operand bytes. -/
theorem instrForm_complete {m : Mnemonic} {mode : Mode} {f : InstrForm} (h : instrForm m mode = some f)
    {bytes : List Byte} {i : Instr} {rest : List Byte} (hc : f.complete bytes = .instr i rest) :
    i.mnemonic = m ∧ i.mode = mode ∧ bytes = i.operandBytes ++ rest := by
  have key : (∀ j, f = .noOperand j → j.mnemonic = m ∧ j.mode = mode ∧ j.operandBytes = []) ∧
      (∀ g, f = .byteOperand g → ∀ b, (g b).mnemonic = m ∧ (g b).mode = mode ∧ (g b).operandBytes = [b]) ∧
      (∀ g, f = .wordOperand g → ∀ w, (g w).mnemonic = m ∧ (g w).mode = mode ∧
        (g w).operandBytes = [loByte w, hiByte w]) := by
    unfold instrForm at h
    split at h <;> cases h <;> refine ⟨?_, ?_, ?_⟩ <;> intro j hj <;> cases hj <;> first
      | exact ⟨rfl, rfl, rfl⟩
      | exact fun _ => ⟨rfl, rfl, rfl⟩
  cases f with
  | noOperand j =>
    obtain ⟨h1, h2, h3⟩ := key.1 j rfl
    cases hc
    exact ⟨h1, h2, by rw [h3]; rfl⟩
  | byteOperand g =>
    rcases bytes with _ | ⟨b, bs⟩ <;> cases hc
    obtain ⟨h1, h2, h3⟩ := key.2.1 g rfl b
    exact ⟨h1, h2, by rw [h3]; rfl⟩
  | wordOperand g =>
    rcases bytes with _ | ⟨lo, _ | ⟨hi, bs⟩⟩ <;> cases hc
    obtain ⟨h1, h2, h3⟩ := key.2.2 g rfl (wordOf hi lo)
    exact ⟨h1, h2, by rw [h3]; simp⟩

/-- Every instruction is of the form of its mnemonic and mode. -/
theorem instrForm_self (i : Instr) :
    ∃ f, instrForm i.mnemonic i.mode = some f ∧ ∀ rest, f.complete (i.operandBytes ++ rest) = .instr i rest := by
  cases i <;> refine ⟨_, rfl, fun rest => ?_⟩ <;> first
    | rfl
    | (simp only [Instr.operandBytes, List.cons_append, List.nil_append, InstrForm.complete, wordOf_hiByte_loByte])

/-- The form a table gives a byte is that of one of its rows. -/
theorem OpcodeTable.row_of_form {t : OpcodeTable} {op : Byte} {f : InstrForm} (h : t.form op = some f) :
    ∃ r ∈ t, r.opcode = op ∧ instrForm r.mnemonic r.mode = some f := by
  induction t with
  | nil => cases h
  | cons r t ih =>
    rw [OpcodeTable.form] at h
    split at h
    · exact ⟨r, List.mem_cons_self, ‹_›, h⟩
    · obtain ⟨q, hq, e⟩ := ih h
      exact ⟨q, List.mem_cons_of_mem _ hq, e⟩

/-- In a well-formed table each row decides its byte. -/
theorem OpcodeTable.form_of_row {t : OpcodeTable} (h : t.WellFormed) {r : OpcodeRow} (hr : r ∈ t) :
    t.form r.opcode = instrForm r.mnemonic r.mode := by
  induction t with
  | nil => cases hr
  | cons q t ih =>
    obtain ⟨hn, hf⟩ := h
    rw [List.map_cons, List.nodup_cons] at hn
    rw [OpcodeTable.form]
    rcases List.mem_cons.mp hr with rfl | hr
    · rw [if_pos rfl]
    · rw [if_neg (fun e : q.opcode = r.opcode => hn.1 (e ▸ List.mem_map_of_mem hr))]
      exact ih ⟨hn.2, fun r hr => hf r (List.mem_cons_of_mem _ hr)⟩ hr

/-- In a well-formed table the bytes with a form are those with a descriptor. -/
theorem OpcodeTable.form_eq_none_iff {t : OpcodeTable} (h : t.WellFormed) (op : Byte) :
    t.form op = none ↔ ¬ Machine.HasDescriptor t op := by
  constructor
  · rintro hn ⟨r, hr, rfl⟩
    have := h.2 r hr
    rw [← OpcodeTable.form_of_row h hr, hn] at this
    cases this
  · intro hn
    cases hf : t.form op with
    | none => rfl
    | some f =>
      obtain ⟨r, hr, e, -⟩ := OpcodeTable.row_of_form hf
      exact absurd ⟨r, hr, e⟩ hn

/-- What the lookup of a byte can answer. -/
theorem opcodeClass_cases (t : OpcodeTable) (op : Byte) :
    (∃ f, t.form op = some f ∧ opcodeClass t op = .admitted f) ∨
    (t.form op = none ∧ op ∈ haltTierBytes ∧ opcodeClass t op = .unknownOpcode) ∨
    (t.form op = none ∧ op ∉ haltTierBytes ∧ opcodeClass t op = .refusedTier) := by
  unfold opcodeClass
  cases t.form op with
  | some f => exact .inl ⟨f, rfl, rfl⟩
  | none => by_cases h : op ∈ haltTierBytes <;> simp [h]

/-- Reading `m + n` bytes is reading `m` and then `n`, the address wrapping. -/
theorem Machine.State.bytesAt_add (s : Machine.State) (a : Word) (m n : Nat) :
    s.bytesAt a (m + n) = s.bytesAt a m ++ s.bytesAt (a + BitVec.ofNat 16 m) n := by
  induction m generalizing a with
  | zero => simp [Machine.State.bytesAt]
  | succ m ih =>
    rw [show m + 1 + n = (m + n) + 1 by omega]
    simp only [Machine.State.bytesAt, ih, List.cons_append]
    congr 3
    rw [BitVec.add_assoc]; congr 1
    apply BitVec.eq_of_toNat_eq; simp; omega

@[simp] theorem Machine.State.bytesAt_length (s : Machine.State) (a : Word) (n : Nat) :
    (s.bytesAt a n).length = n := by
  induction n generalizing a with
  | zero => rfl
  | succ n ih => simp [Machine.State.bytesAt, ih]

end Sys2Proof
end

