-- ==== Sys2Proof/Laws/Exec.lean ====
section
/-! SUPPORT. What the shared operations of the meanings answer, and what an instruction can do to the memory, the
run state, the parameters and the flags B, D and I, said once for all 44 constructors. -/

namespace Sys2Proof.Machine

theorem loadA_eq (o : ReadOperand) (s : State) :
    loadA o s = .next { s with a := o.value s, p := s.p.setZN (o.value s), cycles := s.cycles + o.penalty s } := rfl

theorem loadX_eq (o : ReadOperand) (s : State) :
    loadX o s = .next { s with x := o.value s, p := s.p.setZN (o.value s), cycles := s.cycles + o.penalty s } := rfl

theorem loadY_eq (o : ReadOperand) (s : State) :
    loadY o s = .next { s with y := o.value s, p := s.p.setZN (o.value s), cycles := s.cycles + o.penalty s } := rfl

theorem storeByte_eq (m : MemOperand) (v : Byte) (s : State) : storeByte m v s = .next (s.write (m.ea s) v) := rfl

theorem addWithCarry_eq (o : ReadOperand) (s : State) :
    addWithCarry o s = .next { s with a := adcResult s.a (o.value s) s.p.c, p := s.p.afterAdc s.a (o.value s),
                                      cycles := s.cycles + o.penalty s } := rfl

theorem compareWith_eq (r : Byte) (o : ReadOperand) (s : State) :
    compareWith r o s = .next { s with p := s.p.afterCompare r (o.value s), cycles := s.cycles + o.penalty s } := rfl

/-- How an instruction can leave the memory: as it was, or after one or two `MemWrite`s. -/
def MemoryEffect (s t : State) : Prop :=
  t.mem = s.mem ∨ (∃ a v, t.mem = (s.write a v).mem) ∨ ∃ a v b w, t.mem = ((s.write a v).write b w).mem

theorem exec_memory_effect (i : Instr) (s : State) :
    ∃ t, exec i s = .next t ∧ SameControl s t ∧ KeepsBDI s.p t.p ∧ MemoryEffect s t := by
  have load : ∀ (r : State) (hm : r.mem = s.mem) (hr : r.runState = s.runState) (hp : r.platform = s.platform)
      (hb : KeepsBDI s.p r.p), ∃ t, Host.Outcome.next (φ := Fault) (ρ := Refusal) r = .next t ∧ SameControl s t ∧
        KeepsBDI s.p t.p ∧ MemoryEffect s t := fun r hm hr hp hb => ⟨r, rfl, ⟨hr, hp⟩, hb, .inl hm⟩
  have store : ∀ (m : MemOperand) (v : Byte), ∃ t, storeByte m v s = .next t ∧ SameControl s t ∧
      KeepsBDI s.p t.p ∧ MemoryEffect s t := fun m v =>
    ⟨_, rfl, ⟨by simp, by simp⟩, ⟨by simp, by simp, by simp⟩, .inr (.inl ⟨_, _, rfl⟩)⟩
  cases i
  case staZp | staAbs | staAbsX | staAbsY | staIndY | stxZp | stxAbs => exact store _ _
  case jsr addr =>
    refine ⟨_, rfl, ⟨by simp, by simp⟩, ⟨by simp, by simp, by simp⟩, .inr (.inr ?_)⟩
    refine ⟨stackAddress s.sp, hiByte (s.pc - 1), stackAddress (s.sp - 1), loByte (s.pc - 1), ?_⟩
    simp only [State.push_mem, State.push_sp]
    simp only [State.write, State.push]
    split <;> split <;> rfl
  case beq off =>
    unfold exec execBeq
    simp only
    split <;> exact load _ rfl rfl rfl ⟨rfl, rfl, rfl⟩
  all_goals exact load _ rfl rfl rfl ⟨rfl, rfl, rfl⟩

end Sys2Proof.Machine
end

