-- ==== Sys2Proof/Laws/PerInstr.lean ====
section
/-! SUPPORT. The per-instruction families of LAWS.json. -/

namespace Sys2Proof.Laws

theorem Mode.length_le (m : Mode) : m.length ≤ maxInstrLength := by cases m <;> decide

/-- An instruction's encoding has the length its mode fixes (spec/30_encoding.md R56, R57). -/
def EncodedLength.Statement (i : Instr) : Prop := (encode i).length = i.length ∧ i.length ≤ maxInstrLength

theorem EncodedLength.jsr (v : Word) : EncodedLength.Statement (Instr.jsr v) := ⟨rfl, Mode.length_le _⟩
theorem EncodedLength.jmp (v : Word) : EncodedLength.Statement (Instr.jmp v) := ⟨rfl, Mode.length_le _⟩
theorem EncodedLength.rts : EncodedLength.Statement Instr.rts := ⟨rfl, Mode.length_le _⟩
theorem EncodedLength.adcZp (v : Byte) : EncodedLength.Statement (Instr.adcZp v) := ⟨rfl, Mode.length_le _⟩
theorem EncodedLength.adcImm (v : Byte) : EncodedLength.Statement (Instr.adcImm v) := ⟨rfl, Mode.length_le _⟩
theorem EncodedLength.adcAbs (v : Word) : EncodedLength.Statement (Instr.adcAbs v) := ⟨rfl, Mode.length_le _⟩
theorem EncodedLength.adcIndY (v : Byte) : EncodedLength.Statement (Instr.adcIndY v) := ⟨rfl, Mode.length_le _⟩
theorem EncodedLength.adcAbsY (v : Word) : EncodedLength.Statement (Instr.adcAbsY v) := ⟨rfl, Mode.length_le _⟩
theorem EncodedLength.adcAbsX (v : Word) : EncodedLength.Statement (Instr.adcAbsX v) := ⟨rfl, Mode.length_le _⟩
theorem EncodedLength.staZp (v : Byte) : EncodedLength.Statement (Instr.staZp v) := ⟨rfl, Mode.length_le _⟩
theorem EncodedLength.stxZp (v : Byte) : EncodedLength.Statement (Instr.stxZp v) := ⟨rfl, Mode.length_le _⟩
theorem EncodedLength.staAbs (v : Word) : EncodedLength.Statement (Instr.staAbs v) := ⟨rfl, Mode.length_le _⟩
theorem EncodedLength.stxAbs (v : Word) : EncodedLength.Statement (Instr.stxAbs v) := ⟨rfl, Mode.length_le _⟩
theorem EncodedLength.staIndY (v : Byte) : EncodedLength.Statement (Instr.staIndY v) := ⟨rfl, Mode.length_le _⟩
theorem EncodedLength.staAbsY (v : Word) : EncodedLength.Statement (Instr.staAbsY v) := ⟨rfl, Mode.length_le _⟩
theorem EncodedLength.staAbsX (v : Word) : EncodedLength.Statement (Instr.staAbsX v) := ⟨rfl, Mode.length_le _⟩
theorem EncodedLength.ldyImm (v : Byte) : EncodedLength.Statement (Instr.ldyImm v) := ⟨rfl, Mode.length_le _⟩
theorem EncodedLength.ldxImm (v : Byte) : EncodedLength.Statement (Instr.ldxImm v) := ⟨rfl, Mode.length_le _⟩
theorem EncodedLength.ldyZp (v : Byte) : EncodedLength.Statement (Instr.ldyZp v) := ⟨rfl, Mode.length_le _⟩
theorem EncodedLength.ldaZp (v : Byte) : EncodedLength.Statement (Instr.ldaZp v) := ⟨rfl, Mode.length_le _⟩
theorem EncodedLength.ldxZp (v : Byte) : EncodedLength.Statement (Instr.ldxZp v) := ⟨rfl, Mode.length_le _⟩
theorem EncodedLength.ldaImm (v : Byte) : EncodedLength.Statement (Instr.ldaImm v) := ⟨rfl, Mode.length_le _⟩
theorem EncodedLength.ldyAbs (v : Word) : EncodedLength.Statement (Instr.ldyAbs v) := ⟨rfl, Mode.length_le _⟩
theorem EncodedLength.ldaAbs (v : Word) : EncodedLength.Statement (Instr.ldaAbs v) := ⟨rfl, Mode.length_le _⟩
theorem EncodedLength.ldxAbs (v : Word) : EncodedLength.Statement (Instr.ldxAbs v) := ⟨rfl, Mode.length_le _⟩
theorem EncodedLength.ldaIndY (v : Byte) : EncodedLength.Statement (Instr.ldaIndY v) := ⟨rfl, Mode.length_le _⟩
theorem EncodedLength.ldaAbsY (v : Word) : EncodedLength.Statement (Instr.ldaAbsY v) := ⟨rfl, Mode.length_le _⟩
theorem EncodedLength.ldyAbsX (v : Word) : EncodedLength.Statement (Instr.ldyAbsX v) := ⟨rfl, Mode.length_le _⟩
theorem EncodedLength.ldaAbsX (v : Word) : EncodedLength.Statement (Instr.ldaAbsX v) := ⟨rfl, Mode.length_le _⟩
theorem EncodedLength.ldxAbsY (v : Word) : EncodedLength.Statement (Instr.ldxAbsY v) := ⟨rfl, Mode.length_le _⟩
theorem EncodedLength.cpyImm (v : Byte) : EncodedLength.Statement (Instr.cpyImm v) := ⟨rfl, Mode.length_le _⟩
theorem EncodedLength.cpyZp (v : Byte) : EncodedLength.Statement (Instr.cpyZp v) := ⟨rfl, Mode.length_le _⟩
theorem EncodedLength.cmpZp (v : Byte) : EncodedLength.Statement (Instr.cmpZp v) := ⟨rfl, Mode.length_le _⟩
theorem EncodedLength.iny : EncodedLength.Statement Instr.iny := ⟨rfl, Mode.length_le _⟩
theorem EncodedLength.cmpImm (v : Byte) : EncodedLength.Statement (Instr.cmpImm v) := ⟨rfl, Mode.length_le _⟩
theorem EncodedLength.dex : EncodedLength.Statement Instr.dex := ⟨rfl, Mode.length_le _⟩
theorem EncodedLength.cpyAbs (v : Word) : EncodedLength.Statement (Instr.cpyAbs v) := ⟨rfl, Mode.length_le _⟩
theorem EncodedLength.cmpAbs (v : Word) : EncodedLength.Statement (Instr.cmpAbs v) := ⟨rfl, Mode.length_le _⟩
theorem EncodedLength.cmpIndY (v : Byte) : EncodedLength.Statement (Instr.cmpIndY v) := ⟨rfl, Mode.length_le _⟩
theorem EncodedLength.cmpAbsY (v : Word) : EncodedLength.Statement (Instr.cmpAbsY v) := ⟨rfl, Mode.length_le _⟩
theorem EncodedLength.cmpAbsX (v : Word) : EncodedLength.Statement (Instr.cmpAbsX v) := ⟨rfl, Mode.length_le _⟩
theorem EncodedLength.inx : EncodedLength.Statement Instr.inx := ⟨rfl, Mode.length_le _⟩
theorem EncodedLength.nop : EncodedLength.Statement Instr.nop := ⟨rfl, Mode.length_le _⟩
theorem EncodedLength.beq (v : Byte) : EncodedLength.Statement (Instr.beq v) := ⟨rfl, Mode.length_le _⟩

end Sys2Proof.Laws
end

