-- ==== Sys2Proof/Laws/Step.lean ====
section
/-! SUPPORT. The inversion of a step: the five things it can be. -/

namespace Sys2Proof.Machine

theorem step_of_not_canStep {s : State} (h : ¬ CanStep s) : step s = .next s := by
  unfold step; unfold CanStep at h; cases hr : s.runState <;> simp_all

theorem step_of_canStep {s : State} (h : CanStep s) :
    step s =
      match s.fetchInstr with
      | (.instr op i, s1) => exec i (s1.addCycles (s.platform.baseCycles op i))
      | (.unknownOpcode, s1) => .next s1.haltUnknownOpcode
      | (.refusedTier op, s1) =>
        match s.platform.unlistedOpcodePolicy with
        | .refuseDocumented => .refused (.refusedOpcode op)
        | .haltAll => .next s1.haltUnknownOpcode := by
  rcases h with h | h <;> simp only [step, h] <;> rfl

/-- What a step can be: nothing, when halted; the halt or the refusal, by the opcode byte's tier; or an
instruction's `exec` after its fetches. -/
theorem step_cases (s : State) :
    (¬ CanStep s ∧ step s = .next s) ∨
    (CanStep s ∧ s.platform.opcodeTable.form (s.read s.pc) = none ∧ s.read s.pc ∈ haltTierBytes ∧
      step s = .next (State.haltUnknownOpcode { s with pc := s.pc + 1 })) ∨
    (CanStep s ∧ s.platform.opcodeTable.form (s.read s.pc) = none ∧ s.read s.pc ∉ haltTierBytes ∧
      s.platform.unlistedOpcodePolicy = .haltAll ∧
      step s = .next (State.haltUnknownOpcode { s with pc := s.pc + 1 })) ∨
    (CanStep s ∧ s.platform.opcodeTable.form (s.read s.pc) = none ∧ s.read s.pc ∉ haltTierBytes ∧
      s.platform.unlistedOpcodePolicy = .refuseDocumented ∧ step s = .refused (.refusedOpcode (s.read s.pc))) ∨
    (CanStep s ∧ (∃ f, s.platform.opcodeTable.form (s.read s.pc) = some f) ∧ ∃ (i : Instr) (n : Word),
      step s = exec i
        { s with pc := s.pc + n, cycles := s.cycles + s.platform.baseCycles (s.read s.pc) i }) := by
  by_cases hc : CanStep s
  · refine .inr ?_
    rw [step_of_canStep hc]
    rcases opcodeClass_cases s.platform.opcodeTable (s.read s.pc) with ⟨f, hf, e⟩ | ⟨hf, h, e⟩ | ⟨hf, h, e⟩
    · obtain ⟨i, n, hi⟩ := State.fetchInstr_admitted e
      rw [hi]
      exact .inr (.inr (.inr ⟨hc, ⟨f, hf⟩, i, n, rfl⟩))
    · rw [State.fetchInstr_unknown e]
      exact .inl ⟨hc, hf, h, rfl⟩
    · rw [State.fetchInstr_refused e]
      cases hp : s.platform.unlistedOpcodePolicy
      · exact .inr (.inr (.inl ⟨hc, hf, h, rfl, rfl⟩))
      · exact .inr (.inl ⟨hc, hf, h, rfl, rfl⟩)
  · exact .inl ⟨hc, step_of_not_canStep hc⟩

end Sys2Proof.Machine
end

