-- ==== Sys2Proof/Machine/AsmText.lean ====
section
/-! DEFINITION. The assembler's source text (spec/30_encoding.md R68, R69): from a line's characters to the parsed
line of Assembler.lean. What the rules leave open here is in assumption log 19. -/

namespace Sys2Proof.Asm

def isBlank (c : Char) : Bool := c == ' ' || c == '\t' || c == '\r'

/-- A character that begins an IDENT: a letter or `_` (R68). -/
def beginsIdent (c : Char) : Bool := c.isAlpha || c == '_'

/-- A character that continues an IDENT (R68). -/
def continuesIdent (c : Char) : Bool := c.isAlphanum || c == '_'

/-- The text without the blanks around it. -/
def trim (cs : List Char) : List Char := ((cs.dropWhile isBlank).reverse.dropWhile isBlank).reverse

/-- The text up to a `;` outside a quoted string; `quoted` says whether it begins inside one (R68). -/
def stripComment (quoted : Bool) : List Char → List Char
  | [] => []
  | c :: cs =>
    if c == '"' then c :: stripComment (!quoted) cs
    else if c == ';' && !quoted then []
    else c :: stripComment quoted cs

/-- Split at the commas that are in no quoted string and in no parentheses (R68); `piece` holds, in reverse, the
characters since the last comma. -/
def splitCommas (quoted : Bool) (depth : Nat) (piece : List Char) : List Char → List (List Char)
  | [] => [piece.reverse]
  | c :: cs =>
    if c == '"' then splitCommas (!quoted) depth (c :: piece) cs
    else if quoted then splitCommas quoted depth (c :: piece) cs
    else if c == '(' then splitCommas quoted (depth + 1) (c :: piece) cs
    else if c == ')' then splitCommas quoted (depth - 1) (c :: piece) cs
    else if c == ',' && depth == 0 then piece.reverse :: splitCommas quoted depth [] cs
    else splitCommas quoted depth (c :: piece) cs

/-- The operands of a line, each trimmed; none for a blank text. The comma of `,X` and `,Y` separates too:
`parseInstr` joins the index to the operand before it, as R68 says, and in a list of `.BYTE` or `.WORD`, which has no
indexed operands, an `X` or `Y` is a symbol operand of its own (R69, R73, R74). DESIGN CHOICE (assumption log 19). -/
def operands (cs : List Char) : List (List Char) :=
  if (trim cs).isEmpty then [] else (splitCommas false 0 [] cs).map trim

/-- An IDENT at the head of a text, and what follows it. -/
def takeIdent : List Char → Option (Name × List Char)
  | [] => none
  | c :: cs =>
    if beginsIdent c then some (c :: cs.takeWhile continuesIdent, cs.dropWhile continuesIdent) else none

/-- A digit's value in a base up to 16. The spec does not say which case the hexadecimal letters have: both are taken.
DESIGN CHOICE (assumption log 19). -/
def digit (base : Nat) (c : Char) : Option Nat :=
  let v := if c.isDigit then c.toNat - 48 else if 'a' ≤ c ∧ c ≤ 'f' then c.toNat - 87
    else if 'A' ≤ c ∧ c ≤ 'F' then c.toNat - 55 else 16
  if v < base then some v else none

/-- A numeral's value after the digits read so far. -/
def digits (base acc : Nat) : List Char → Option Nat
  | [] => some acc
  | c :: cs =>
    match digit base c with
    | some d => digits base (acc * base + d) cs
    | none => none

/-- A numeral of at least one digit. -/
def numeral (base : Nat) (cs : List Char) : Option Nat := if cs.isEmpty then none else digits base 0 cs

/-- A primary: `$hex`, a decimal numeral or a symbol (R69). -/
def parsePrimary : List Char → Option Primary
  | [] => none
  | '$' :: cs => (numeral 16 cs).map .number
  | cs =>
    match takeIdent cs with
    | some (name, []) => some (.symbol name)
    | some (_, _ :: _) => none
    | none => (numeral 10 cs).map .number

/-- An expression: a primary, or one after `<` or `>` (R69); anything else is malformed. Blanks may stand around an
expression, and so after `#` and inside `(...)`, and after `<` and `>`: the spec does not say. DESIGN CHOICE
(assumption log 19). -/
def parseExpr (cs : List Char) : Expr :=
  match trim cs with
  | '<' :: rest => ((parsePrimary (trim rest)).map Expr.lowByte).getD .malformed
  | '>' :: rest => ((parsePrimary (trim rest)).map Expr.highByte).getD .malformed
  | rest => ((parsePrimary rest).map Expr.value).getD .malformed

/-- The characters of a quoted string that is a whole operand; there are no escape sequences (R73). -/
def parseString : List Char → Option (List Nat)
  | '"' :: cs =>
    match cs.reverse with
    | '"' :: rev => if rev.any (· == '"') then none else some (rev.reverse.map Char.toNat)
    | _ => none
  | _ => none

/-- An operand of `.BYTE` (R73). -/
def parseByteItem (cs : List Char) : ByteItem :=
  match parseString cs with
  | some codes => .text codes
  | none => .expr (parseExpr cs)

/-- An instruction's statement from its operands' text: the forms of R76's table. -/
def parseInstr (m : Mnemonic) : List (List Char) → Statement
  | [] => .instr m .none
  | [o] =>
    match o with
    | '#' :: cs => .instr m (.immediate (parseExpr cs))
    | '(' :: _ => .unknown
    | cs => .instr m (.plain (parseExpr cs))
  | [o, index] =>
    if index = ['X'] ∨ index = ['x'] then
      match o with
      | '#' :: _ => .unknown
      | '(' :: _ => .unknown
      | cs => .instr m (.indexedX (parseExpr cs))
    else if index = ['Y'] ∨ index = ['y'] then
      match o with
      | '#' :: _ => .unknown
      | '(' :: cs =>
        match cs.reverse with
        | ')' :: rev => .instr m (.indirectY (parseExpr rev.reverse))
        | _ => .unknown
      | cs => .instr m (.indexedY (parseExpr cs))
    else .unknown
  | _ :: _ :: _ :: _ => .unknown

/-- The mnemonic of a token in capitals. -/
def mnemonicOf (token : Name) : Option Mnemonic :=
  if token = ['L', 'D', 'A'] then some .lda
  else if token = ['L', 'D', 'X'] then some .ldx
  else if token = ['L', 'D', 'Y'] then some .ldy
  else if token = ['S', 'T', 'A'] then some .sta
  else if token = ['S', 'T', 'X'] then some .stx
  else if token = ['A', 'D', 'C'] then some .adc
  else if token = ['C', 'M', 'P'] then some .cmp
  else if token = ['C', 'P', 'Y'] then some .cpy
  else if token = ['I', 'N', 'X'] then some .inx
  else if token = ['I', 'N', 'Y'] then some .iny
  else if token = ['D', 'E', 'X'] then some .dex
  else if token = ['J', 'M', 'P'] then some .jmp
  else if token = ['J', 'S', 'R'] then some .jsr
  else if token = ['R', 'T', 'S'] then some .rts
  else if token = ['B', 'E', 'Q'] then some .beq
  else if token = ['N', 'O', 'P'] then some .nop
  else none

/-- A directive's statement from its token, in capitals and without the dot, and its operands (R72 to R75). One whose
operands are not of its form is InvalidDirectiveSyntax. DESIGN CHOICE (assumption log 19). -/
def parseDirective (token : Name) (os : List (List Char)) : Statement :=
  if token = ['O', 'R', 'G'] then
    match os with
    | [o] => .org (parseExpr o)
    | _ => .org .malformed
  else if token = ['B', 'Y', 'T', 'E'] then
    if os.isEmpty then .malformed else .byte (os.map parseByteItem)
  else if token = ['W', 'O', 'R', 'D'] then
    if os.isEmpty then .malformed else .word (os.map parseExpr)
  else if token = ['A', 'S', 'C', 'I', 'I', 'Z'] then
    match os with
    | [o] => ((parseString o).map Statement.asciiz).getD .malformed
    | _ => .malformed
  else .unknown

/-- A label `IDENT:` at the head of a trimmed line, and the rest of the line, trimmed (R68). -/
def takeLabel (cs : List Char) : Option Name × List Char :=
  match takeIdent cs with
  | some (name, ':' :: rest) => (some name, trim rest)
  | _ => (none, cs)

/-- A line's statement from its text after the label. A blank between a mnemonic or directive and its operand is not
needed, the token ending where no IDENT character follows: the spec does not say. DESIGN CHOICE (assumption log 19). -/
def parseStatement (cs : List Char) : Statement :=
  match cs with
  | [] => .empty
  | '.' :: rest =>
    parseDirective ((rest.takeWhile continuesIdent).map Char.toUpper) (operands (rest.dropWhile continuesIdent))
  | _ :: _ =>
    match takeIdent cs with
    | none => .unknown
    | some (token, rest) =>
      match trim rest with
      | '=' :: value => .constant token (parseExpr value)
      | _ =>
        match mnemonicOf (token.map Char.toUpper) with
        | some m => parseInstr m (operands rest)
        | none => .unknown

/-- A source line from its number and its characters (R68). -/
def parseLine (number : Nat) (raw : List Char) : Line :=
  let (label, rest) := takeLabel (trim (stripComment false raw))
  { number := number, label := label, statement := parseStatement rest }

/-- The source's lines, numbered from `number`. -/
def parseLines (number : Nat) : List (List Char) → List Line
  | [] => []
  | raw :: rest => parseLine number raw :: parseLines (number + 1) rest

/-- Assembling source text (R68 to R80). -/
def assembleText (source : List (List Char)) : Assembly := assemble (parseLines 1 source)

end Sys2Proof.Asm
end

