-- ==== Sys2Proof/Tests/Slice0.lean ====
section
/-! SUPPORT. The model's own tests. Expected values are those of spec/95_test_vectors.md (the vector's id is in the
comment) or are read off the rule named. A test of a step is about one step. -/

namespace Sys2Proof.Tests

open Sys2Proof Sys2Proof.Machine

/-- The outcome is a next state with the property. -/
def nextIs (r : Result) (f : State → Bool) : Bool :=
  match r with
  | .next t => f t
  | .fault _ => false
  | .refused _ => false

/-- The reset state with bytes placed from an address up, and PC there. -/
def code (addr : Word) (bytes : List Byte) : State := { State.reset.placeBytes addr bytes with pc := addr }

/-- The state with bytes placed from an address up. -/
def withBytes (addr : Word) (bytes : List Byte) (s : State) : State := s.placeBytes addr bytes

/-- P with the flags that `Status.toByte` would show as the given byte. -/
def flags (p : Byte) : Status :=
  ⟨p.getLsbD 7, p.getLsbD 6, p.getLsbD 4, p.getLsbD 3, p.getLsbD 2, p.getLsbD 1, p.getLsbD 0⟩

/-- A font ROM of two bytes 3C, 42 at F000. -/
def fontPlatform : Platform := { Config.platform with fontBase := 0xF000, fontData := [0x3C, 0x42] }

/-- The reset state with that font ROM. -/
def fontState : State := State.resetWith fontPlatform

/-! ### Well-formedness smoke: an ill-formed term for each check -/

theorem test_wf_accepts_r62 : OpcodeTable.r62.WellFormed := by decide +kernel
theorem test_wf_accepts_default_platform : Config.platform.WellFormed := ⟨by decide, by decide, test_wf_accepts_r62⟩
theorem test_wf_refuses_byte_with_two_rows : ¬ OpcodeTable.WellFormed [⟨0xEA, .nop, .implied⟩, ⟨0xEA, .inx, .implied⟩] := by decide
theorem test_wf_refuses_pair_without_instruction : ¬ OpcodeTable.WellFormed [⟨0xEA, .sta, .immediate⟩] := by decide
theorem test_wf_accepts_font_up_to_the_end : Platform.fontFits { Config.platform with fontBase := 0xFFFE, fontData := [1, 2] } := by decide
theorem test_wf_refuses_font_past_the_end : ¬ Platform.fontFits { Config.platform with fontBase := 0xFFFF, fontData := [1, 2] } := by decide
theorem test_wf_refuses_video_past_the_end : ¬ Platform.videoFits { Config.platform with videoBase := 0xFFFF, videoSize := 2 } := by decide
theorem test_memory_wf_refuses_unsorted : Memory.wf [(2, 1), (1, 1)] = false := by decide
theorem test_memory_wf_refuses_repeat : Memory.wf [(1, 1), (1, 2)] = false := by decide
theorem test_memory_wf_refuses_listed_zero : Memory.wf [(1, 0)] = false := by decide
theorem test_memory_wf_refuses_address_past_the_end : Memory.wf [(65536, 1)] = false := by decide
theorem test_memory_wf_reset : State.reset.mem.wf = true := by decide
/-- R65: every instruction is well-formed. -/
theorem test_wf_instr (i : Instr) : i.wellFormed = true := by cases i <;> rfl

/-! ### Decoding: every constructor by a word written out from R62 and R57 -/

theorem test_decode_loads :
    decode OpcodeTable.r62 [0xA0, 0x81] = .instr (.ldyImm 0x81) [] ∧
    decode OpcodeTable.r62 [0xA2, 0x81] = .instr (.ldxImm 0x81) [] ∧
    decode OpcodeTable.r62 [0xA4, 0x81] = .instr (.ldyZp 0x81) [] ∧
    decode OpcodeTable.r62 [0xA5, 0x81] = .instr (.ldaZp 0x81) [] ∧
    decode OpcodeTable.r62 [0xA6, 0x81] = .instr (.ldxZp 0x81) [] ∧
    decode OpcodeTable.r62 [0xA9, 0x81] = .instr (.ldaImm 0x81) [] ∧
    decode OpcodeTable.r62 [0xAC, 0x34, 0x92] = .instr (.ldyAbs 0x9234) [] ∧
    decode OpcodeTable.r62 [0xAD, 0x34, 0x92] = .instr (.ldaAbs 0x9234) [] ∧
    decode OpcodeTable.r62 [0xAE, 0x34, 0x92] = .instr (.ldxAbs 0x9234) [] ∧
    decode OpcodeTable.r62 [0xB1, 0x81] = .instr (.ldaIndY 0x81) [] ∧
    decode OpcodeTable.r62 [0xB9, 0x34, 0x92] = .instr (.ldaAbsY 0x9234) [] ∧
    decode OpcodeTable.r62 [0xBC, 0x34, 0x92] = .instr (.ldyAbsX 0x9234) [] ∧
    decode OpcodeTable.r62 [0xBD, 0x34, 0x92] = .instr (.ldaAbsX 0x9234) [] ∧
    decode OpcodeTable.r62 [0xBE, 0x34, 0x92] = .instr (.ldxAbsY 0x9234) [] := by decide

theorem test_decode_stores :
    decode OpcodeTable.r62 [0x85, 0x81] = .instr (.staZp 0x81) [] ∧
    decode OpcodeTable.r62 [0x86, 0x81] = .instr (.stxZp 0x81) [] ∧
    decode OpcodeTable.r62 [0x8D, 0x34, 0x92] = .instr (.staAbs 0x9234) [] ∧
    decode OpcodeTable.r62 [0x8E, 0x34, 0x92] = .instr (.stxAbs 0x9234) [] ∧
    decode OpcodeTable.r62 [0x91, 0x81] = .instr (.staIndY 0x81) [] ∧
    decode OpcodeTable.r62 [0x99, 0x34, 0x92] = .instr (.staAbsY 0x9234) [] ∧
    decode OpcodeTable.r62 [0x9D, 0x34, 0x92] = .instr (.staAbsX 0x9234) [] := by decide

theorem test_decode_add_compare :
    decode OpcodeTable.r62 [0x65, 0x81] = .instr (.adcZp 0x81) [] ∧
    decode OpcodeTable.r62 [0x69, 0x81] = .instr (.adcImm 0x81) [] ∧
    decode OpcodeTable.r62 [0x6D, 0x34, 0x92] = .instr (.adcAbs 0x9234) [] ∧
    decode OpcodeTable.r62 [0x71, 0x81] = .instr (.adcIndY 0x81) [] ∧
    decode OpcodeTable.r62 [0x79, 0x34, 0x92] = .instr (.adcAbsY 0x9234) [] ∧
    decode OpcodeTable.r62 [0x7D, 0x34, 0x92] = .instr (.adcAbsX 0x9234) [] ∧
    decode OpcodeTable.r62 [0xC0, 0x81] = .instr (.cpyImm 0x81) [] ∧
    decode OpcodeTable.r62 [0xC4, 0x81] = .instr (.cpyZp 0x81) [] ∧
    decode OpcodeTable.r62 [0xC5, 0x81] = .instr (.cmpZp 0x81) [] ∧
    decode OpcodeTable.r62 [0xC9, 0x81] = .instr (.cmpImm 0x81) [] ∧
    decode OpcodeTable.r62 [0xCC, 0x34, 0x92] = .instr (.cpyAbs 0x9234) [] ∧
    decode OpcodeTable.r62 [0xCD, 0x34, 0x92] = .instr (.cmpAbs 0x9234) [] ∧
    decode OpcodeTable.r62 [0xD1, 0x81] = .instr (.cmpIndY 0x81) [] ∧
    decode OpcodeTable.r62 [0xD9, 0x34, 0x92] = .instr (.cmpAbsY 0x9234) [] ∧
    decode OpcodeTable.r62 [0xDD, 0x34, 0x92] = .instr (.cmpAbsX 0x9234) [] := by decide

theorem test_decode_increment :
    decode OpcodeTable.r62 [0xC8] = .instr .iny [] ∧
    decode OpcodeTable.r62 [0xCA] = .instr .dex [] ∧
    decode OpcodeTable.r62 [0xE8] = .instr .inx [] := by decide

theorem test_decode_control :
    decode OpcodeTable.r62 [0x20, 0x34, 0x92] = .instr (.jsr 0x9234) [] ∧
    decode OpcodeTable.r62 [0x4C, 0x34, 0x92] = .instr (.jmp 0x9234) [] ∧
    decode OpcodeTable.r62 [0x60] = .instr .rts [] ∧
    decode OpcodeTable.r62 [0xEA] = .instr .nop [] ∧
    decode OpcodeTable.r62 [0xF0, 0x81] = .instr (.beq 0x81) [] := by decide

/-- 0xA9 = 1010 1001 LDA #0x7F (R62). -/
theorem test_decode_bits_load : decodeTableWord 16 0b0111111110101001 = some (.ldaImm 0x7F) := by decide
/-- 0x8D = 1000 1101 STA 0x1234, low byte in bits 15..8 (R57). -/
theorem test_decode_bits_store : decodeTableWord 24 0b000100100011010010001101 = some (.staAbs 0x1234) := by decide
/-- 0x71 = 0111 0001 ADC (0x80),Y (R62). -/
theorem test_decode_bits_add : decodeTableWord 16 0b1000000001110001 = some (.adcIndY 0x80) := by decide
/-- 0xCA = 1100 1010 DEX (R62). -/
theorem test_decode_bits_increment : decodeTableWord 8 0b11001010 = some .dex := by decide
/-- 0xF0 = 1111 0000 BEQ −128 (R61, R62). -/
theorem test_decode_bits_control : decodeTableWord 16 0b1000000011110000 = some (.beq 0x80) := by decide
/-- A row's opcode bits alone: the operand bytes are zeros. -/
theorem test_decode_opcode_only : decodeTableWord 8 0x20 = some (.jsr 0) := by decide
theorem test_decode_refused_and_halt : decodeTableWord 8 0x00 = none ∧ decodeTableWord 8 0x02 = none := by decide

/-- With R62's table the bytes of neither it nor R63's list are R64's 107 bytes, and the three tiers are the 256 bytes
(R62 to R65). -/
theorem test_refused_tier_is_R64 :
    ∀ op : Byte, (match opcodeClass OpcodeTable.r62 op with | .refusedTier => true | _ => false) = refusedTierBytes.contains op := by
  decide +kernel
theorem test_tier_sizes : haltTierBytes.length = 105 ∧ refusedTierBytes.length = 107 ∧ 105 + 107 + 44 = 256 := by decide

/-! ### Steps -/

/-- LS-1. -/
theorem test_lda_immediate_zero :
    nextIs (step { code 0 [0xA9, 0x00] with p := flags 0xA5 }) (fun t => t.a == 0 && t.p.toByte == 0x27 && t.pc == 2 && t.cycles == 2) = true := by decide
/-- AM-10: the pointer at 0x80 is FFFF, and adding Y wraps to 0001. -/
theorem test_lda_indirect_wraps :
    nextIs (step { withBytes 0x80 [0xFF, 0xFF] (withBytes 1 [0x0C] (code 0x200 [0xB1, 0x80])) with y := 2 })
      (fun t => t.a == 0x0C && t.cycles == 6 && t.pc == 0x202) = true := by decide
/-- AM-8: the pointer's high byte wraps within page 0. -/
theorem test_lda_pointer_wraps_in_page_zero :
    nextIs (step (withBytes 0xFF [0x34] (withBytes 0 [0x12] (withBytes 0x1234 [0x56] (code 0x200 [0xB1, 0xFF])))))
      (fun t => t.a == 0x56 && t.cycles == 5) = true := by decide
/-- LS-5. -/
theorem test_ldx_absolute_y :
    nextIs (step { withBytes 0x205 [0x80] (code 0 [0xBE, 0x00, 0x02]) with y := 5 }) (fun t => t.x == 0x80 && t.p.toByte == 0xA4 && t.cycles == 4) = true := by decide
/-- LS-6. -/
theorem test_ldy_absolute_x_crosses :
    nextIs (step { withBytes 0x300 [0x01] (code 0 [0xBC, 0xFF, 0x02]) with x := 1 }) (fun t => t.y == 1 && t.cycles == 5) = true := by decide
/-- LS-11. -/
theorem test_sta_indirect_no_penalty :
    nextIs (step { withBytes 0x80 [0xF8, 0x03] (code 0x200 [0x91, 0x80]) with a := 9, y := 0x10 })
      (fun t => t.read 0x408 == 9 && t.cycles == 6 && t.p.toByte == 0x24) = true := by decide
/-- M-9 and M-10: a store into the font ROM under each policy. -/
theorem test_sta_font_rom :
    nextIs (step (withBytes 0 [0x8D, 0x00, 0xF0] { fontState with a := 0x11 })) (fun t => t.read 0xF000 == 0x3C && t.pc == 3 && t.cycles == 4) = true ∧
    nextIs (step (withBytes 0 [0x8D, 0x00, 0xF0]
      { fontState with a := 0x11, platform := { fontPlatform with romWritePolicy := .write } })) (fun t => t.read 0xF000 == 0x11) = true := by decide
/-- LS-12, LS-13. -/
theorem test_stx_zero_page :
    nextIs (step { code 0 [0x86, 0xFF] with x := 0x7F }) (fun t => t.read 0xFF == 0x7F && t.cycles == 3) = true ∧
    nextIs (step { code 0 [0x8E, 0x00, 0x02] with x := 0x7F }) (fun t => t.read 0x200 == 0x7F && t.cycles == 4) = true := by decide
/-- AD-1 to AD-12, through the flags' view as a byte: a, mm, P before, A after, P after. -/
theorem test_adc_vectors :
    ([(0x20, 0x10, 0x24, 0x30, 0x24), (0x80, 0x80, 0x24, 0x00, 0x67), (0x01, 0x7F, 0x24, 0x80, 0xE4), (0xFF, 0xFF, 0x25, 0xFF, 0xA5),
      (0x7F, 0x00, 0x25, 0x80, 0xE4), (0x00, 0x00, 0x24, 0x00, 0x26), (0x50, 0x50, 0x24, 0xA0, 0xE4), (0xD0, 0x90, 0x24, 0x60, 0x65),
      (0xFF, 0x01, 0x24, 0x00, 0x27), (0x80, 0xFF, 0x24, 0x7F, 0x65), (0x3F, 0x40, 0x25, 0x80, 0xE4), (0xFF, 0x00, 0x25, 0x00, 0x27)]
      : List (Byte × Byte × Byte × Byte × Byte)).all (fun (a, m, p, r, q) =>
        nextIs (exec (.adcImm m) { State.reset with a := a, p := flags p }) (fun t => t.a == r && t.p.toByte == q)) = true := by decide
/-- AD-15: binary with D set. -/
theorem test_adc_ignores_decimal :
    nextIs (step { code 0 [0x69, 0x01] with a := 9, p := flags 0x2C }) (fun t => t.a == 0x0A && t.p.d) = true := by decide
/-- CP-1 to CP-6: r, mm, CMP's P after from 64, CPY's P after from 25. -/
theorem test_compare_vectors :
    ([(0x10, 0x80, 0xE4, 0xA4), (0x42, 0x42, 0x67, 0x27), (0x00, 0x01, 0xE4, 0xA4), (0x80, 0x00, 0xE5, 0xA5), (0xFF, 0x00, 0xE5, 0xA5),
      (0x01, 0xFF, 0x64, 0x24)] : List (Byte × Byte × Byte × Byte)).all (fun (r, m, p, q) =>
        nextIs (exec (.cmpImm m) { State.reset with a := r, p := flags 0x64 }) (fun t => t.a == r && t.p.toByte == p) &&
        nextIs (exec (.cpyImm m) { State.reset with y := r, p := flags 0x25 }) (fun t => t.y == r && t.p.toByte == q)) = true := by decide
/-- CP-7. -/
theorem test_cmp_absolute_x_crosses :
    nextIs (step { withBytes 0x100 [0x05] (code 0 [0xDD, 0xFF, 0x00]) with a := 5, x := 1 }) (fun t => t.p.toByte == 0x27 && t.cycles == 5) = true := by decide
/-- CP-8, CP-9. -/
theorem test_cpy_memory_forms :
    nextIs (step { withBytes 0x10 [0x04] (code 0 [0xC4, 0x10]) with y := 3 }) (fun t => t.p.toByte == 0xA4 && t.cycles == 3) = true ∧
    nextIs (step { withBytes 0x200 [0x03] (code 0 [0xCC, 0x00, 0x02]) with y := 3 }) (fun t => t.p.toByte == 0x27 && t.cycles == 4) = true := by decide
/-- IN-1, IN-2. -/
theorem test_inx :
    nextIs (step { code 0 [0xE8] with x := 0xFF, p := flags 0x25 }) (fun t => t.x == 0 && t.p.toByte == 0x27 && t.cycles == 2) = true ∧
    nextIs (step { code 0 [0xE8] with x := 0x7F, p := flags 0x64 }) (fun t => t.x == 0x80 && t.p.toByte == 0xE4) = true := by decide
/-- IN-4, IN-5. -/
theorem test_iny :
    nextIs (step { code 0 [0xC8] with y := 0xFF }) (fun t => t.y == 0 && t.p.toByte == 0x26) = true ∧
    nextIs (step { code 0 [0xC8] with y := 3 }) (fun t => t.y == 4 && t.p.toByte == 0x24) = true := by decide
/-- IN-6, IN-8. -/
theorem test_dex :
    nextIs (step { code 0 [0xCA] with x := 0, p := flags 0x25 }) (fun t => t.x == 0xFF && t.p.toByte == 0xA5) = true ∧
    nextIs (step { code 0 [0xCA] with x := 0x80, p := flags 0xA4 }) (fun t => t.x == 0x7F && t.p.toByte == 0x24) = true := by decide
/-- Program 3, step 3: the operand straddles FFFF. -/
theorem test_jmp_straddles :
    nextIs (step (withBytes 0 [0x4C, 0xFD] (code 0xFFFF [0x4C]))) (fun t => t.pc == 0xFD4C && t.cycles == 3) = true := by decide
/-- CT-4: the stack wraps within page 1. -/
theorem test_jsr_stack_wraps :
    nextIs (step { code 0 [0x20, 0x34, 0x12] with sp := 0 })
      (fun t => t.read 0x100 == 0 && t.read 0x1FF == 2 && t.sp == 0xFE && t.pc == 0x1234 && t.cycles == 6) = true := by decide
/-- CT-16: the pushes overwrite the JSR's own bytes after their fetch. -/
theorem test_jsr_over_itself :
    nextIs (step { code 0x100 [0x20, 0x34, 0x12] with sp := 1 })
      (fun t => t.read 0x101 == 1 && t.read 0x100 == 2 && t.sp == 0xFF && t.pc == 0x1234) = true := by decide
/-- CT-7, CT-8. -/
theorem test_rts :
    nextIs (step { withBytes 0x1FE [0xFF, 0xFF] (code 0x1000 [0x60]) with sp := 0xFD }) (fun t => t.sp == 0xFF && t.pc == 0 && t.cycles == 6) = true ∧
    nextIs (step (withBytes 0x100 [0x34, 0x12] (code 0x1000 [0x60]))) (fun t => t.sp == 1 && t.pc == 0x1235) = true := by decide
/-- W-6, W-7, CT-10: taken in the page, taken across pages, not taken. -/
theorem test_beq :
    nextIs (step { code 0 [0xF0, 0x7F] with p := flags 0x26 }) (fun t => t.pc == 0x81 && t.cycles == 3) = true ∧
    nextIs (step { code 0 [0xF0, 0x80] with p := flags 0x26 }) (fun t => t.pc == 0xFF82 && t.cycles == 4) = true ∧
    nextIs (step (code 0 [0xF0, 0x7F])) (fun t => t.pc == 2 && t.cycles == 2) = true := by decide
/-- CT-14: PC-after-fetch wraps. -/
theorem test_beq_at_the_end :
    nextIs (step { code 0xFFFE [0xF0, 0x05] with p := flags 0x26 }) (fun t => t.pc == 5 && t.cycles == 3) = true := by decide
/-- CT-15. -/
theorem test_nop :
    nextIs (step (code 0x10 [0xEA])) (fun t => decide (t = { code 0x10 [0xEA] with pc := 0x11, cycles := 2 })) = true := by decide
/-- S-2, S-3. -/
theorem test_unknown_opcode_halts :
    nextIs (step (code 0xFFFF [0xFF])) (fun t => decide (t = { code 0xFFFF [0xFF] with pc := 0, cycles := 1, runState := .halted .unknownOpcode })) = true ∧
    nextIs (step { code 0x4000 [0x12] with a := 1, x := 2, y := 3, sp := 0x80, p := flags 0xE7 })
      (fun t => t.pc == 0x4001 && t.a == 1 && t.x == 2 && t.y == 3 && t.sp == 0x80 && t.p.toByte == 0xE7 && t.ended && t.read (t.pc - 1) == 0x12) = true := by decide
/-- R-2, LS-14: a refused byte under each policy. -/
theorem test_refused_byte :
    step State.reset = .refused (.refusedOpcode 0x00) ∧ step (code 0 [0x95, 0x80]) = .refused (.refusedOpcode 0x95) ∧
    nextIs (step (State.resetWith { Config.platform with unlistedOpcodePolicy := .haltAll }))
      (fun t => t.ended && t.pc == 1 && t.cycles == 1) = true := ⟨rfl, rfl, by decide⟩
/-- S-1's second step, R-4: nothing happens in Halted. -/
theorem test_halted_stays :
    nextIs (step { code 0 [0xEA] with runState := .halted .unknownOpcode })
      (fun t => decide (t = { code 0 [0xEA] with runState := .halted .unknownOpcode })) = true := by decide
/-- The host's probe: a row's opcode placed where step fetches next runs first after reset, and in Halted too. -/
theorem test_withFetchWord :
    nextIs (step (State.reset.withFetchWord 8 0xE8)) (fun t => t.x == 1 && t.pc == 1) = true ∧
    nextIs (step (State.withFetchWord { State.reset with runState := .halted .unknownOpcode } 24 0x12344C)) (fun t => t.pc == 0x1234) = true := by decide
/-- A platform's own base cost replaces R142's (R5). -/
theorem test_base_cycle_override :
    nextIs (step { code 0 [0xEA] with platform := { Config.platform with baseCycleOverrides := [(0xEA, 7)] } }) (fun t => t.cycles == 7) = true := by decide

/-- A platform's own table (R5, D3): NOP at 0x02, and no row for 0xEA, which no list of R63 has. -/
theorem test_own_opcode_table :
    nextIs (step { code 0 [0x02] with platform := { Config.platform with opcodeTable := [⟨0x02, .nop, .implied⟩] } })
      (fun t => t.pc == 1 && t.cycles == 2 && t.runState == .idle) = true ∧
    step { code 0 [0xEA] with platform := { Config.platform with opcodeTable := [⟨0x02, .nop, .implied⟩] } } =
      .refused (.refusedOpcode 0xEA) := ⟨by decide, rfl⟩

/-! ### The host's commands -/

/-- M-3, M-5: loads that fit, the second up to the last address. -/
theorem test_load_ok :
    (State.reset.loadProgram [0xA9, 0x101] 0x1000).1 = .ok ∧
    (State.reset.loadProgram [0xA9, 0x101] 0x1000).2.mem = [(0x1000, 0xA9), (0x1001, 0x01)] ∧
    (State.reset.loadProgram [0xA9, 0x42, 0x4C] 0xFFFD).1 = .ok := by decide
/-- M-4, M-6. -/
theorem test_load_capacity :
    State.reset.loadProgram [1, 2] 0xFFFF = (.capacityExceeded, State.reset) ∧
    State.reset.loadProgram [] 0 = (.ok, State.reset) := by decide
/-- M-7, M-8, and loads that end just before and start just after the font ROM. -/
theorem test_load_rom_overlap :
    (fontState.loadProgram [0] 0xF000).1 = .romOverlap ∧
    (fontState.loadProgram (List.replicate 5 0) 0xF001).1 = .romOverlap ∧
    (State.loadProgram (State.resetWith { Config.platform with fontBase := 0xFFFE, fontData := [1, 2] }) [0, 0, 0] 0xFFFF).1 = .romOverlap ∧
    (fontState.loadProgram [1] 0xEFFF).1 = .ok ∧ (fontState.loadProgram [1] 0xF002).1 = .ok ∧
    (fontState.loadProgram [] 0xF000).1 = .ok := by decide
/-- R-1, R-5: reset from Halted, with the font ROM written. -/
theorem test_reset_command :
    nextIs (command .reset { fontState with a := 1, mem := [(2, 3)], runState := .halted .unknownOpcode, cycles := 9 })
      (fun t => decide (t = fontState)) = true ∧
    fontState.mem = [(0xF000, 0x3C), (0xF001, 0x42)] ∧ fontState.p.toByte = 0x24 ∧ fontState.sp = 0xFF := by decide
/-- R-3, R-6, R-7. -/
theorem test_run_and_stop :
    nextIs (runLoop 5 (code 0 [0x02]).hostRun) (fun t => t.ended && t.pc == 1 && t.cycles == 1) = true ∧
    nextIs (runLoop 2 (code 0 [0x4C, 0x00, 0x00]).hostRun)
      (fun t => decide (t.hostStop = { code 0 [0x4C, 0x00, 0x00] with cycles := 6 })) = true ∧
    State.reset.hostStop = State.reset := by decide
/-- The observation port and the display's ports (R32). -/
theorem test_observation :
    fontState.observe = ⟨0, 0, 0, 0xFF, 0x24, 0, .idle⟩ ∧ fontState.fontRom = [0x3C, 0x42] ∧
    State.videoMemory (State.resetWith { fontPlatform with videoBase := 0xF001, videoSize := 2 }) = [0x42, 0] := by decide

/-! ### The assembler -/

open Asm

/-- Assembling source lines. -/
def source (lines : List String) : Assembly := assembleText (lines.map String.toList)

/-- AS-1, AS-3, AS-4, AS-16, and R68's case rule, comment and comma of an index. -/
theorem test_asm_operand_forms :
    source ["LDA $80", "LDA $0080", "lda $0200 ; text", "LDA #>$1234", "LDA #<$1234", "LDA #$1FF", "STA $0008", "LDA ($80), y"] =
      .ok [0xA5, 0x80, 0xA5, 0x80, 0xAD, 0x00, 0x02, 0xA9, 0x12, 0xA9, 0x34, 0xA9, 0xFF, 0x85, 0x08, 0xB1, 0x80] [] := by decide
/-- AS-2: a forward reference takes Absolute. -/
theorem test_asm_forward_reference : source ["LDA LATER", "LATER: NOP"] = .ok [0xAD, 0x03, 0x00, 0xEA] [] := by decide
/-- AS-5. -/
theorem test_asm_branch_to_itself : source ["L: BEQ L"] = .ok [0xF0, 0xFE] [] := by decide +kernel
/-- AS-6, AS-7. -/
theorem test_asm_branch : source ["BEQ F", "F = $81"] = .ok [0xF0, 0x7F] [] := by decide
theorem test_asm_branch_out_of_range : source ["BEQ F", "F = $82"] = .errors [⟨1, .branchOutOfRange⟩] := by decide
/-- AS-8, AS-9, AS-10. -/
theorem test_asm_data :
    source [".WORD $1234, 5", ".ASCIIZ \"HI\"", ".BYTE \"AB\", 1"] =
      .ok [0x34, 0x12, 0x05, 0x00, 0x48, 0x49, 0x00, 0x41, 0x42, 0x01] [] := by decide
/-- AS-11, AS-12. -/
theorem test_asm_symbol_errors :
    source ["A = B", "B = 1"] = .errors [⟨1, .undefinedSymbol⟩] ∧
    source ["L: NOP", "L: NOP"] = .errors [⟨2, .duplicateSymbol⟩] := by decide
/-- R78: all errors are collected, here two of one line and two of one definition. -/
theorem test_asm_all_errors :
    source [".BYTE A, B"] = .errors [⟨1, .undefinedSymbol⟩, ⟨1, .undefinedSymbol⟩] ∧
    source ["A = 1", "A = B"] = .errors [⟨2, .duplicateSymbol⟩, ⟨2, .undefinedSymbol⟩] := by decide
/-- R71: no label of a malformed `.ORG` or constant line is recorded. -/
theorem test_asm_label_on_malformed_org :
    source ["X: .ORG 1+2", "X: NOP"] = .errors [⟨1, .invalidDirectiveSyntax⟩] ∧
    source ["X: A = 1+2", "X: NOP"] = .errors [⟨1, .invalidDirectiveSyntax⟩] := by decide
/-- AS-13, and R69's malformed expression. -/
theorem test_asm_form_errors :
    source ["STX $0200,X", "STA #1", "INX 5", "LDA 1+2"] =
      .errors [⟨1, .unknownInstruction⟩, ⟨2, .unknownInstruction⟩, ⟨3, .unknownInstruction⟩, ⟨4, .invalidDirectiveSyntax⟩] := by decide
/-- AS-14, AS-15. -/
theorem test_asm_org :
    source [".ORG 4", ".BYTE 1"] = .ok [0, 0, 0, 0, 1] [] ∧ source [".BYTE 1", ".ORG 0", ".BYTE 2"] = .ok [2] [3] := by decide
/-- AS-17. -/
theorem test_asm_label_on_org : source ["X: .ORG $10", "JMP X"] = .errors [⟨2, .undefinedSymbol⟩] := by decide
/-- Program 1's 23 bytes (section 3.1). -/
theorem test_asm_program_1 :
    source ["  LDY #0 ; 0000", "  LDA #0", "LOOP: CPY #4", "  BEQ DONE", "  ADC TABLE,Y", "  INY", "  JMP LOOP",
      "DONE: STA $0200", "  .BYTE $02 ; halt", "TABLE: .BYTE 1,2,3,4"] =
      .ok [0xA0, 0x00, 0xA9, 0x00, 0xC0, 0x04, 0xF0, 0x07, 0x79, 0x13, 0x00, 0xC8, 0x4C, 0x04, 0x00, 0x8D, 0x00, 0x02, 0x02,
        0x01, 0x02, 0x03, 0x04] [] := by decide

/-! ### Witnesses: states and operands that meet the hypotheses of each statement of Obligations.lean -/

theorem witness_DecodedBytesAreTheEncoding :
    decode OpcodeTable.r62 [0xAD, 0x34, 0x12, 0x99] = .instr (.ldaAbs 0x1234) [0x99] ∧ decode OpcodeTable.r62 [0xAD, 0x34] ≠ .instr (.ldaAbs 0x34) [] := by decide

theorem witness_EveryOpcodeByteHasOneTier :
    0x02 ∈ haltTierBytes ∧ 0xFF ∈ haltTierBytes ∧ 0x00 ∈ refusedTierBytes ∧ 0xFE ∈ refusedTierBytes ∧
    (Instr.ldaImm 0).opcode = 0xA9 := by decide

theorem canStep_idle : CanStep State.reset := .inl rfl

/-- An instruction that straddles the end of the address space, and one in the run loop. -/
theorem witness_StepRunsDecodedInstruction :
    CanStep (withBytes 0 [0x34, 0x12] (code 0xFFFF [0x20])) ∧
    decode OpcodeTable.r62 ((withBytes 0 [0x34, 0x12] (code 0xFFFF [0x20])).bytesAt 0xFFFF 3) = .instr (.jsr 0x1234) [] ∧
    CanStep { code 0 [0xA9, 0x80] with runState := .running } ∧
    decode OpcodeTable.r62 ((code 0 [0xA9, 0x80]).bytesAt 0 3) = .instr (.ldaImm 0x80) [0x00] :=
  ⟨.inl rfl, by decide, .inr rfl, by decide⟩

theorem witness_StepRunsEncodedInstruction :
    CanStep (code 0 [0xBD, 0xFF, 0x02]) ∧ (code 0 [0xBD, 0xFF, 0x02]).platform.opcodeTable.WellFormed ∧
    HasRow (code 0 [0xBD, 0xFF, 0x02]).platform.opcodeTable 0xBD (.ldaAbsX 0x02FF) ∧
    (code 0 [0xBD, 0xFF, 0x02]).bytesAt 0 (Instr.ldaAbsX 0x02FF).length = 0xBD :: (Instr.ldaAbsX 0x02FF).operandBytes :=
  ⟨.inl rfl, test_wf_accepts_r62, by unfold HasRow; decide, by decide⟩

/-- A BEQ that is not taken, at the end of the address space; a taken one transfers control. -/
theorem witness_StepMovesPcPastInstruction :
    CanStep (code 0xFFFE [0xF0, 0x05]) ∧ (code 0xFFFE [0xF0, 0x05]).platform.opcodeTable.WellFormed ∧
    HasRow (code 0xFFFE [0xF0, 0x05]).platform.opcodeTable 0xF0 (.beq 0x05) ∧
    (code 0xFFFE [0xF0, 0x05]).bytesAt 0xFFFE (Instr.beq 0x05).length = 0xF0 :: (Instr.beq 0x05).operandBytes ∧
    ¬ Claims.TransfersControl (.beq 0x05) (code 0xFFFE [0xF0, 0x05]) ∧
    Claims.TransfersControl (.beq 0x05) { code 0xFFFE [0xF0, 0x05] with p := flags 0x26 } :=
  ⟨.inl rfl, test_wf_accepts_r62, by unfold HasRow; decide, by decide, by unfold Claims.TransfersControl; decide,
    by unfold Claims.TransfersControl; decide⟩

/-- A row of a table other than R62's. -/
theorem witness_DecodeOfEncodeIsTheInstruction :
    OpcodeTable.WellFormed [⟨0x02, .jmp, .absolute⟩] ∧ HasRow [⟨0x02, .jmp, .absolute⟩] 0x02 (.jmp 0x1234) ∧
    decode [⟨0x02, .jmp, .absolute⟩] [0x02, 0x34, 0x12, 0x99] = .instr (.jmp 0x1234) [0x99] :=
  ⟨by decide, by unfold HasRow; decide, by decide⟩

/-- A halt-tier byte, and a byte that R63 does not list, under `halt-all`. -/
theorem witness_UndefinedOpcodeHalts :
    (CanStep (code 0 [0x02]) ∧ (code 0 [0x02]).platform.opcodeTable.WellFormed ∧
      ¬ HasDescriptor (code 0 [0x02]).platform.opcodeTable ((code 0 [0x02]).read 0) ∧
      (code 0 [0x02]).read 0 ∈ haltTierBytes) ∧
    nextIs (step (code 0 [0x02])) (fun t => decide (t.runState = .halted .unknownOpcode)) = true ∧
    (code 0 [0x02]).platform.opcodeTable = OpcodeTable.r62 ∧
    (let s := State.resetWith { Config.platform with unlistedOpcodePolicy := .haltAll }
     CanStep s ∧ ¬ HasDescriptor s.platform.opcodeTable (s.read s.pc) ∧ s.read s.pc ∈ refusedTierBytes ∧
      s.platform.unlistedOpcodePolicy = .haltAll) :=
  ⟨⟨.inl rfl, test_wf_accepts_r62, by unfold HasDescriptor; decide, by decide⟩, by decide, rfl, .inl rfl,
    by unfold HasDescriptor; decide, by decide, rfl⟩

theorem witness_StepRefusesExactlyRefusedBytes :
    step State.reset = .refused (.refusedOpcode 0x00) ∧ CanStep State.reset ∧
    State.reset.platform.opcodeTable.WellFormed ∧
    ¬ HasDescriptor State.reset.platform.opcodeTable (State.reset.read 0) ∧ State.reset.read 0 ∉ haltTierBytes ∧
    State.reset.read 0 ∈ refusedTierBytes ∧ State.reset.platform.opcodeTable = OpcodeTable.r62 ∧
    State.reset.platform.unlistedOpcodePolicy = .refuseDocumented :=
  ⟨rfl, .inl rfl, test_wf_accepts_r62, by unfold HasDescriptor; decide, by decide, by decide, rfl, rfl⟩

/-- Two operands of one opcode, and the two tiers. -/
theorem witness_DispatchDependsOnOpcodeAlone :
    decode OpcodeTable.r62 [0xA9, 0x01] = .instr (.ldaImm 0x01) [] ∧ decode OpcodeTable.r62 [0xA9, 0x80] = .instr (.ldaImm 0x80) [] ∧
    decode OpcodeTable.r62 [0x02] = .unknownOpcode ∧ decode OpcodeTable.r62 [0x00] = .refusedTier 0x00 := by decide

theorem witness_TableRowsAreTheInstructions :
    (⟨0xF0, .beq, .relative⟩ : OpcodeRow) ∈ OpcodeTable.r62 ∧ (⟨0xEA, .nop, .immediate⟩ : OpcodeRow) ∉ OpcodeTable.r62 := by decide

/-- The pointer's high byte wraps within page 0; without and with a page cross. -/
theorem witness_IndirectIndexedAddress :
    let s := { withBytes 0xFF [0xFF] (withBytes 0 [0x12] State.reset) with y := 1 }
    (0xFF = (s.read (BitVec.ofNat 16 0xFF)).toNat ∧ 0x12 = (s.read (BitVec.ofNat 16 ((0xFF + 1) % 256))).toNat) ∧
    0x12FF = 0x12 * 256 + 0xFF ∧
    (MemOperand.indirectIndexedY 0xFF).ea s = 0x1300 ∧ (MemOperand.indirectIndexedY 0xFF).crossed s = true ∧
    (MemOperand.indirectIndexedY 0xFF).crossed { s with y := 0 } = false := by decide

/-- R88's corners. -/
theorem witness_ReadOperandValueAndPenalty :
    (MemOperand.absoluteX 0x12F0).crossed { State.reset with x := 0x10 } = true ∧
    (MemOperand.absoluteX 0x1200).crossed { State.reset with x := 0xFF } = false ∧
    (MemOperand.absoluteX 0xFFFF).crossed { State.reset with x := 0x01 } = true := by decide

/-- The edges of the font ROM, for a store and for the two pushes of a JSR. -/
theorem witness_Stored :
    StoreDropped fontPlatform 0xF000 ∧ StoreDropped fontPlatform 0xF001 ∧
    ¬ StoreDropped fontPlatform 0xEFFF ∧ ¬ StoreDropped fontPlatform 0xF002 ∧
    ¬ StoreDropped { fontPlatform with romWritePolicy := .write } 0xF000 ∧
    StoreDropped { fontPlatform with fontBase := 0x01FE } 0x01FF ∧ StoreDropped { fontPlatform with fontBase := 0x01FE } 0x01FE := by
  unfold StoreDropped InFontRom; decide

/-- SP and the return address at their wraps. -/
theorem witness_JsrPushesReturnAddress :
    let s := { State.reset with sp := 0, pc := 0 }
    (0x0100 : Word) = BitVec.ofNat 16 (256 + s.sp.toNat) ∧
    (0x01FF : Word) = BitVec.ofNat 16 (256 + (s.sp.toNat + 255) % 256) ∧ 0xFFFF = (s.pc.toNat + 65535) % 65536 ∧
    nextIs (exec (.jsr 0x1234) s) (fun t => t.read 0x0100 == 0xFF && t.read 0x01FF == 0xFF && t.sp == 0xFE && t.pc == 0x1234) = true := by
  decide

theorem witness_RtsReturnsToPulledAddress :
    let s := { withBytes 0x01FF [0x34, 0x00] (withBytes 0x0100 [0x12] State.reset) with sp := 0xFE }
    0x34 = (s.read (BitVec.ofNat 16 (256 + (s.sp.toNat + 1) % 256))).toNat ∧
    0x12 = (s.read (BitVec.ofNat 16 (256 + (s.sp.toNat + 2) % 256))).toNat ∧
    nextIs (exec .rts s) (fun t => t.pc == 0x1235 && t.sp == 0) = true := by decide

/-- The state after the JSR is itself a state the RTS may run in. -/
theorem witness_RtsReturnsFromJsr :
    let s := { State.reset with sp := 0, pc := 0x4003 }
    ¬ StoreDropped s.platform (BitVec.ofNat 16 (256 + s.sp.toNat)) ∧
    ¬ StoreDropped s.platform (BitVec.ofNat 16 (256 + (s.sp.toNat + 255) % 256)) ∧
    nextIs (exec (.jsr 0x1234) s) (fun t => nextIs (exec .rts t) (fun w => w.pc == 0x4003 && w.sp == 0)) = true := by
  unfold StoreDropped InFontRom; decide

/-- Taken within the page, taken across pages, not taken. -/
theorem witness_BeqBranchesOnZ :
    nextIs (exec (.beq 0x7F) { State.reset with p := flags 0x26, pc := 0x80 })
      (fun t => t.pc == 0xFF && t.pc.toNat / 256 == 0 && t.cycles == 1) = true ∧
    nextIs (exec (.beq 0x80) { State.reset with p := flags 0x26, pc := 2 }) (fun t => t.pc == 0xFF82 && t.cycles == 2) = true ∧
    State.reset.p.z = false := by decide

/-- Each register, each flag and memory are written by some instruction. -/
theorem witness_RegisterWriters :
    nextIs (exec (.ldaImm 1) State.reset) (fun t => t.a != State.reset.a) = true ∧
    nextIs (exec .inx State.reset) (fun t => t.x != State.reset.x) = true ∧
    nextIs (exec .iny State.reset) (fun t => t.y != State.reset.y) = true ∧
    nextIs (exec .rts State.reset) (fun t => t.sp != State.reset.sp && t.pc != State.reset.pc) = true := by decide
theorem witness_FlagWriters :
    nextIs (exec .dex State.reset) (fun t => t.p.n != State.reset.p.n) = true ∧
    nextIs (exec (.ldyImm 0) State.reset) (fun t => t.p.z != State.reset.p.z) = true ∧
    nextIs (exec (.adcImm 0x7F) { State.reset with a := 1 }) (fun t => t.p.v != State.reset.p.v) = true ∧
    nextIs (exec (.cmpImm 0) State.reset) (fun t => t.p.c != State.reset.p.c) = true := by decide
theorem witness_MemoryWriters :
    nextIs (exec (.staZp 5) { State.reset with a := 1 }) (fun t => t.read 5 != State.reset.read 5) = true := by decide

theorem witness_UnreadFlagsNeverInfluence :
    SameButUnreadFlags (code 0 [0x69, 0x01]) { code 0 [0x69, 0x01] with p := flags 0xDC } ∧
    nextIs (step (code 0 [0x69, 0x01])) (fun t => t.a == 1) = true :=
  ⟨⟨true, true, true, true, true, rfl⟩, by decide⟩

theorem witness_CyclesNeverInfluence :
    nextIs (step (code 0 [0xEA])) (fun t => t.cycles == 2) = true ∧ step State.reset = .refused (.refusedOpcode 0x00) ∧
    step { State.reset with cycles := State.reset.cycles + 7 } = .refused (.refusedOpcode 0x00) :=
  ⟨by decide, rfl, rfl⟩

theorem witness_MemWriteStoresTheByte :
    StoreDropped fontState.platform 0xF001 ∧ fontState.writeNat 0xF001 0x111 = fontState ∧
    ¬ StoreDropped fontState.platform 0xF002 ∧ (fontState.writeNat 0xF002 0x1FF).read 0xF002 = 0xFF :=
  ⟨by unfold StoreDropped InFontRom; decide, by decide, by unfold StoreDropped InFontRom; decide, by decide⟩

theorem fontState_fontIntact : FontIntact fontState := by
  intro _ k b h
  match k, h with
  | 0, h => exact (Option.some.inj h)
  | 1, h => exact (Option.some.inj h)

theorem fontPlatform_wf : fontPlatform.WellFormed := ⟨by decide, by decide, test_wf_accepts_r62⟩

theorem fontState_inv : fontState.Inv := ⟨by decide, fontPlatform_wf, fontState_fontIntact⟩

/-- A store into the font ROM that the policy drops, and a reset. -/
theorem witness_FontRomIsImmutable :
    let s := withBytes 0 [0x8D, 0x00, 0xF0] { fontState with a := 0x11 }
    s.platform.romWritePolicy = .ignore ∧ s.platform.fontFits ∧ InFontRom s.platform 0xF000 ∧
    nextIs (command .step s) (fun t => t.read 0xF000 == 0x3C) = true ∧
    nextIs (command .reset s) (fun t => t.read 0xF001 == 0x42) = true :=
  ⟨rfl, by decide, by unfold InFontRom; decide, by decide, by decide⟩

theorem witness_StepKeepsInvariant :
    let s := State.writeNat fontState 0 0xEA
    s.Inv ∧ nextIs (step s) (fun t => t.pc == 1) = true := by
  refine ⟨⟨by decide, fontPlatform_wf, ?_⟩, by decide⟩
  intro _ k b h
  match k, h with
  | 0, h => exact (Option.some.inj h)
  | 1, h => exact (Option.some.inj h)

theorem witness_CommandKeepsInvariant : fontState.Inv ∧ nextIs (command (.loadProgram [0xEA] 0) fontState) (fun t => t.read 0 == 0xEA) = true :=
  ⟨fontState_inv, by decide⟩

theorem witness_ResetHasInvariant : fontPlatform.WellFormed := fontPlatform_wf

/-- Addresses on both sides of the font ROM's edges. -/
theorem witness_ResetLeavesResetValues :
    fontState.platform.fontFits ∧ InFontRom fontPlatform 0xF000 ∧ InFontRom fontPlatform 0xF001 ∧
    ¬ InFontRom fontPlatform 0xEFFF ∧ ¬ InFontRom fontPlatform 0xF002 := by
  unfold InFontRom; decide

theorem witness_RunAndStopChangeRunStateOnly :
    State.reset.runState = .idle ∧ State.reset.hostRun.runState = .running ∧
    nextIs (step (code 0 [0x02])) (fun t => decide (t.runState = .halted .unknownOpcode)) = true := by decide

theorem witness_OnlyResetLeavesHalted :
    let s := { State.reset with pc := 1, runState := .halted .unknownOpcode }
    s.runState = .halted .unknownOpcode ∧ nextIs (command .run s) (fun t => decide (t.runState = s.runState)) = true ∧
    nextIs (command .reset s) (fun t => decide (t.runState = .idle)) = true := by decide

/-- A load that meets the font ROM and passes the end, one that only passes the end, one that ends at it. -/
theorem witness_LoadProgramLoadsOrRejects :
    (∃ k, ((0xF001 : Word).toNat ≤ k ∧ k < (0xF001 : Word).toNat + [0].length) ∧
      (fontState.platform.fontBase ≤ k ∧ k < fontState.platform.fontBase + fontState.platform.fontData.length)) ∧
    ¬ (∃ k, ((0xF002 : Word).toNat ≤ k ∧ k < (0xF002 : Word).toNat + [0].length) ∧
      (fontState.platform.fontBase ≤ k ∧ k < fontState.platform.fontBase + fontState.platform.fontData.length)) ∧
    (0xFFFF : Word).toNat + [1, 2].length > 65536 ∧ (0xFFFE : Word).toNat + [1, 2].length ≤ 65536 := by
  refine ⟨⟨0xF001, by decide⟩, ?_, by decide, by decide⟩
  rintro ⟨k, ⟨h1, h2⟩, h3, h4⟩
  have e1 : (0xF002 : Word).toNat = 0xF002 := rfl
  have e2 : fontState.platform.fontBase = 0xF000 := rfl
  have e3 : fontState.platform.fontData.length = 2 := rfl
  omega

theorem witness_PauseChangesNoState :
    nextIs (runLoop 1 (code 0 [0x4C, 0x00, 0x00]).hostRun) (fun t => t.cycles == 3) = true := by decide

/-- R77's two ends, and one past each. -/
theorem witness_AssembledBranchReachesTarget :
    branchOffset (0x100 : Word).toNat (0x181 : Word).toNat = some 0x7F ∧
    branchOffset (0x100 : Word).toNat (0x182 : Word).toNat = none ∧
    ({ State.reset with pc := 0x102, p := flags 0x26 } : State).pc = 0x100 + 2 ∧ (flags 0x26).z = true := by decide
theorem witness_AssembledBranchReachesTarget_backwards :
    branchOffset (0x100 : Word).toNat (0x082 : Word).toNat = some 0x80 ∧
    branchOffset (0x100 : Word).toNat (0x081 : Word).toNat = none := by decide +kernel

theorem witness_PushAndPullUseStackPage :
    (0x01FF : Word) = BitVec.ofNat 16 (256 + State.reset.sp.toNat) ∧
    (0x0100 : Word) = BitVec.ofNat 16 (256 + (State.reset.sp.toNat + 1) % 256) := by decide

end Sys2Proof.Tests
end

section
/-! ## Fetch, Push, Pull and the step (R9, R10, R81)

The stack operations as one update each, the decoder's answer as the bytes it came from, and the three statements about
the machine's primitives that follow from them. -/

namespace Sys2Proof

/-! ### The stack operations -/

@[simp] theorem byteOf_toNat (v : Byte) : byteOf v.toNat = v := by
  rw [byteOf, BitVec.ofNat_toNat, BitVec.setWidth_eq]

theorem Machine.stackAddress_eq_ofNat (sp : Byte) : stackAddress sp = BitVec.ofNat 16 (256 + sp.toNat) := by
  rw [← toNat_stackAddress, BitVec.ofNat_toNat, BitVec.setWidth_eq]

theorem Machine.State.push_eq (s : State) (v : Byte) :
    s.push v = { s.write (stackAddress s.sp) v with sp := s.sp - 1 } := by
  simp only [State.push, State.write_sp]

theorem Machine.State.pull_eq (s : State) :
    s.pull = (s.read (stackAddress (s.sp + 1)), { s with sp := s.sp + 1 }) := rfl

/-! ### What the decoder's answer says of the bytes -/

theorem form_of_opcodeClass_admitted {t : OpcodeTable} {op : Byte} {f : InstrForm}
    (h : opcodeClass t op = .admitted f) : t.form op = some f := by
  rcases opcodeClass_cases t op with ⟨g, hg, e⟩ | ⟨-, -, e⟩ | ⟨-, -, e⟩ <;> rw [e] at h <;> cases h
  exact hg

/-- An admitted answer of the decoder comes from a first byte with a form, completed by the bytes after it. -/
theorem decode_eq_instr {t : OpcodeTable} {bytes : List Byte} {i : Instr} {rest : List Byte}
    (h : decode t bytes = .instr i rest) :
    ∃ op operands f, bytes = op :: operands ∧ t.form op = some f ∧ f.complete operands = .instr i rest := by
  cases bytes with
  | nil => cases h
  | cons op operands =>
    rw [decode] at h
    cases hc : opcodeClass t op with
    | admitted f => exact ⟨op, operands, f, rfl, form_of_opcodeClass_admitted hc, by simpa only [hc] using h⟩
    | unknownOpcode => simp only [hc, reduceCtorEq] at h
    | refusedTier => simp only [hc, reduceCtorEq] at h

/-- The bytes an instruction is decoded from are its row's opcode byte, its operand bytes and the rest (R56, R62). -/
theorem row_and_bytes_of_decode {t : OpcodeTable} {bytes : List Byte} {i : Instr} {rest : List Byte}
    (h : decode t bytes = .instr i rest) :
    ∃ op, Machine.HasRow t op i ∧ bytes = op :: i.operandBytes ++ rest := by
  obtain ⟨op, operands, f, rfl, hf, hi⟩ := decode_eq_instr h
  obtain ⟨r, hr, rfl, hform⟩ := OpcodeTable.row_of_form hf
  obtain ⟨hm, hmode, rfl⟩ := instrForm_complete hform hi
  refine ⟨r.opcode, ?_, rfl⟩
  rw [Machine.HasRow, hm, hmode]
  exact hr

theorem Instr.length_eq_operandBytes_length (i : Instr) : i.length = i.operandBytes.length + 1 := by
  cases i <;> rfl

/-- Decoding consumes exactly the instruction's length (R56). -/
theorem length_of_decode {t : OpcodeTable} {bytes : List Byte} {i : Instr} {rest : List Byte}
    (h : decode t bytes = .instr i rest) : bytes.length = i.length + rest.length := by
  obtain ⟨op, -, rfl⟩ := row_and_bytes_of_decode h
  rw [List.length_append, List.length_cons, Instr.length_eq_operandBytes_length]

/-! ### The statements -/

namespace Machine

/-- Settles O6: each operation is one update at the stack address, which is `256 + SP` as a number. -/
theorem pushAndPullUseStackPage : Obligations.PushAndPullUseStackPage := by
  rintro s v top next rfl rfl
  have hsp : (s.sp + 1).toNat = (s.sp.toNat + 1) % 256 := BitVec.toNat_add s.sp 1
  refine ⟨⟨?_, ?_⟩, ?_, ?_⟩
  · rw [State.push_sp, BitVec.toNat_sub, Nat.add_comm]; rfl
  · rw [State.push_sp, ← stackAddress_eq_ofNat, State.writeNat, byteOf_toNat, State.push_eq]
  · rw [State.pull_sp, hsp]
  · rw [State.pull_sp, ← hsp, ← stackAddress_eq_ofNat, State.pull_eq]

/-- Settles O5: a fetch is the read at PC and the update of PC alone. -/
theorem fetchReadsAtPcAndAdvances : Obligations.FetchReadsAtPcAndAdvances := by
  intro s
  refine ⟨State.fetch_value s, ?_, rfl⟩
  rw [State.fetch_pc, BitVec.toNat_add]; rfl

/-- Settles O7: the fetches give the decoded instruction, and PC moves by what the decoder consumed, which is the
instruction's length. -/
theorem stepRunsDecodedInstruction : Obligations.StepRunsDecodedInstruction := by
  intro s i rest hcan hdecode
  have hlen : 3 - rest.length = i.length := by
    have h := length_of_decode hdecode
    rw [State.bytesAt_length] at h
    omega
  rw [step_of_canStep hcan, State.fetchInstr_of_decode hdecode, hlen]
  rfl

end Machine

end Sys2Proof
end

section
/-! ## The state: who writes what, the unread flags, the invariant, the run state (R14 to R34)

`Meaning` sorts the 44 instructions by the shared operation that gives them their meaning, so that a statement about
every instruction is a case split over the 16 mnemonics. Then come the laws of operands and stores under another P, the
invariant kept by every update of the state, and the equations of the run loop. -/

namespace Sys2Proof.Machine

/-! ### The meanings by mnemonic -/

/-- The functions on states that the instructions of a mnemonic stand for, one for each operand. -/
inductive Meaning : Mnemonic → (State → Result) → Prop
  | lda (o : ReadOperand) : Meaning .lda (loadA o)
  | ldx (o : ReadOperand) : Meaning .ldx (loadX o)
  | ldy (o : ReadOperand) : Meaning .ldy (loadY o)
  | sta (m : MemOperand) : Meaning .sta fun s => storeByte m s.a s
  | stx (m : MemOperand) : Meaning .stx fun s => storeByte m s.x s
  | adc (o : ReadOperand) : Meaning .adc (addWithCarry o)
  | cmp (o : ReadOperand) : Meaning .cmp fun s => compareWith s.a o s
  | cpy (o : ReadOperand) : Meaning .cpy fun s => compareWith s.y o s
  | inx : Meaning .inx execInx
  | iny : Meaning .iny execIny
  | dex : Meaning .dex execDex
  | jmp (addr : Word) : Meaning .jmp (execJmp addr)
  | jsr (addr : Word) : Meaning .jsr (execJsr addr)
  | rts : Meaning .rts execRts
  | beq (off : Byte) : Meaning .beq (execBeq off)
  | nop : Meaning .nop execNop

theorem exec_meaning (i : Instr) : Meaning i.mnemonic (exec i) := by
  cases i
  case ldaImm | ldaZp | ldaAbs | ldaAbsX | ldaAbsY | ldaIndY => exact .lda _
  case ldxImm | ldxZp | ldxAbs | ldxAbsY => exact .ldx _
  case ldyImm | ldyZp | ldyAbs | ldyAbsX => exact .ldy _
  case staZp | staAbs | staAbsX | staAbsY | staIndY => exact .sta _
  case stxZp | stxAbs => exact .stx _
  case adcImm | adcZp | adcAbs | adcAbsX | adcAbsY | adcIndY => exact .adc _
  case cmpImm | cmpZp | cmpAbs | cmpAbsX | cmpAbsY | cmpIndY => exact .cmp _
  case cpyImm | cpyZp | cpyAbs => exact .cpy _
  case inx => exact .inx
  case iny => exact .iny
  case dex => exact .dex
  case jmp => exact .jmp _
  case jsr => exact .jsr _
  case rts => exact .rts
  case beq => exact .beq _
  case nop => exact .nop

theorem execJsr_eq (addr : Word) (s : State) :
    execJsr addr s = .next { (s.push (hiByte (s.pc - 1))).push (loByte (s.pc - 1)) with pc := addr } := rfl

theorem execRts_eq (s : State) :
    execRts s = .next { s.pull.2.pull.2 with pc := wordOf s.pull.2.pull.1 s.pull.1 + 1 } := rfl

theorem execBeq_taken {s : State} (off : Byte) (h : s.p.z = true) :
    execBeq off s =
      .next (State.addCycles { s with pc := s.branchTarget off } (takenPenalty s.pc (s.branchTarget off))) := by
  simp only [execBeq, h, if_true]

theorem execBeq_untaken {s : State} (off : Byte) (h : s.p.z = false) : execBeq off s = .next s := by
  simp only [execBeq, h, Bool.false_eq_true, if_false]

/-! ### Who writes what -/

/-- Settles O34: each mnemonic's next state differs from the state before in its own registers only. -/
theorem registerWriters : Obligations.RegisterWriters := by
  intro i s
  have h := exec_meaning i
  unfold Claims.TransfersControl
  generalize i.mnemonic = m, exec i = e at h ⊢
  cases h
  case lda | ldx | ldy | adc | inx | iny | dex => exact ⟨_, rfl, by simp⟩
  case sta | stx | cmp | cpy | nop => exact ⟨_, rfl, by simp⟩
  case jmp => exact ⟨_, rfl, by simp⟩
  case jsr addr => exact ⟨_, execJsr_eq addr s, by simp⟩
  case rts => exact ⟨_, execRts_eq s, by simp⟩
  case beq off =>
    cases hz : s.p.z
    · exact ⟨_, execBeq_untaken off hz, by simp⟩
    · exact ⟨_, execBeq_taken off hz, by simp⟩

/-- Settles O35: loads, counts, ADC and compares write the flags of `setZN`, `afterAdc` and `afterCompare`; the other
mnemonics keep P. -/
theorem flagWriters : Obligations.FlagWriters := by
  intro i s
  have h := exec_meaning i
  generalize i.mnemonic = m, exec i = e at h ⊢
  cases h
  case lda | ldx | ldy | inx | iny | dex => exact ⟨_, rfl, by simp⟩
  case adc | cmp | cpy => exact ⟨_, rfl, by simp⟩
  case sta | stx | jmp | nop => exact ⟨_, rfl, by simp⟩
  case jsr addr => exact ⟨_, execJsr_eq addr s, by simp⟩
  case rts => exact ⟨_, execRts_eq s, by simp⟩
  case beq off =>
    cases hz : s.p.z
    · exact ⟨_, execBeq_untaken off hz, by simp [hz]⟩
    · exact ⟨_, execBeq_taken off hz, by simp [hz]⟩

/-! ### The flags that no instruction reads -/

theorem sameButUnreadFlags_iff {s t : State} :
    SameButUnreadFlags s t ↔ ∃ q : Status, t = { s with p := q } ∧ q.z = s.p.z ∧ q.c = s.p.c := by
  constructor
  · rintro ⟨n, v, b, d, i, rfl⟩
    exact ⟨_, rfl, rfl, rfl⟩
  · rintro ⟨q, rfl, hz, hc⟩
    exact ⟨q.n, q.v, q.b, q.d, q.i, by rw [← hz, ← hc]⟩

@[simp] theorem MemOperand.ea_withP (m : MemOperand) (s : State) (q : Status) :
    m.ea { s with p := q } = m.ea s := by
  cases m <;> rfl

@[simp] theorem MemOperand.crossed_withP (m : MemOperand) (s : State) (q : Status) :
    m.crossed { s with p := q } = m.crossed s := by
  cases m <;> rfl

@[simp] theorem ReadOperand.value_withP (o : ReadOperand) (s : State) (q : Status) :
    o.value { s with p := q } = o.value s := by
  cases o with
  | immediate imm => rfl
  | memory m => simp only [ReadOperand.value, MemOperand.ea_withP]; rfl

@[simp] theorem ReadOperand.penalty_withP (o : ReadOperand) (s : State) (q : Status) :
    o.penalty { s with p := q } = o.penalty s := by
  cases o with
  | immediate imm => rfl
  | memory m => simp only [ReadOperand.penalty, MemOperand.crossed_withP]

/-- A meaning reads no flag but Z and C: with another P that has the same Z and C it answers the same next state but
for its P, which again has the same Z and C. -/
theorem Meaning.next_withP {m : Mnemonic} {e : State → Result} (h : Meaning m e) (s : State) {q : Status}
    (hz : q.z = s.p.z) (hc : q.c = s.p.c) :
    ∃ t q', e s = .next t ∧ e { s with p := q } = .next { t with p := q' } ∧ q'.z = t.p.z ∧ q'.c = t.p.c := by
  cases h
  case lda o => exact ⟨_, q.setZN (o.value s), rfl, by simp [loadA_eq], rfl, hc⟩
  case ldx o => exact ⟨_, q.setZN (o.value s), rfl, by simp [loadX_eq], rfl, hc⟩
  case ldy o => exact ⟨_, q.setZN (o.value s), rfl, by simp [loadY_eq], rfl, hc⟩
  case sta m | stx m => exact ⟨_, q, rfl, by simp [storeByte_eq, State.write_withP], by simpa, by simpa⟩
  case adc o =>
    exact ⟨_, q.afterAdc s.a (o.value s), rfl, by simp [addWithCarry_eq, hc], by simp [hc], by simp [hc]⟩
  case cmp o => exact ⟨_, q.afterCompare s.a (o.value s), rfl, by simp [compareWith_eq], rfl, rfl⟩
  case cpy o => exact ⟨_, q.afterCompare s.y (o.value s), rfl, by simp [compareWith_eq], rfl, rfl⟩
  case inx => exact ⟨_, q.setZN (s.x + 1), rfl, rfl, rfl, hc⟩
  case iny => exact ⟨_, q.setZN (s.y + 1), rfl, rfl, rfl, hc⟩
  case dex => exact ⟨_, q.setZN (s.x - 1), rfl, rfl, rfl, hc⟩
  case jmp addr => exact ⟨_, q, rfl, rfl, hz, hc⟩
  case jsr addr =>
    exact ⟨_, q, execJsr_eq addr s, by simp only [execJsr_eq, State.push_withP], by simpa, by simpa⟩
  case rts => exact ⟨_, q, rfl, rfl, hz, hc⟩
  case beq off =>
    cases hs : s.p.z
    · exact ⟨s, q, execBeq_untaken off hs, execBeq_untaken off (hz.trans hs), hz, hc⟩
    · exact ⟨_, q, execBeq_taken off hs, execBeq_taken off (hz.trans hs), hz, hc⟩
  case nop => exact ⟨s, q, rfl, rfl, hz, hc⟩

theorem State.fetchInstr_p (s : State) : s.fetchInstr.2.p = s.p := by
  obtain ⟨n, -, h⟩ := State.fetchInstr_frame s
  rw [h]

/-- The fetches and the dispatch read no flag, and the instruction's meaning only Z and C. -/
theorem step_withP {s t : State} {q : Status} (hz : q.z = s.p.z) (hc : q.c = s.p.c) (h : step s = .next t) :
    ∃ q', step { s with p := q } = .next { t with p := q' } ∧ q'.z = t.p.z ∧ q'.c = t.p.c := by
  by_cases hcan : CanStep s
  · have hcan' : CanStep { s with p := q } := hcan
    have hp := State.fetchInstr_p s
    rw [step_of_canStep hcan] at h
    rw [step_of_canStep hcan', State.fetchInstr_withP]
    generalize s.fetchInstr = r at h hp ⊢
    obtain ⟨f, u⟩ := r
    rw [← hp] at hz hc
    cases f with
    | instr op i =>
      obtain ⟨t', q', ht, hq, hz', hc'⟩ :=
        (exec_meaning i).next_withP (u.addCycles (s.platform.baseCycles op i)) hz hc
      cases ht.symm.trans h
      exact ⟨q', hq, hz', hc'⟩
    | unknownOpcode => cases h; exact ⟨q, rfl, hz, hc⟩
    | refusedTier op =>
      cases hpol : s.platform.unlistedOpcodePolicy with
      | refuseDocumented => simp only [hpol, reduceCtorEq] at h
      | haltAll =>
        simp only [hpol, Host.Outcome.next.injEq] at h ⊢
        subst h
        exact ⟨q, rfl, hz, hc⟩
  · have hcan' : ¬ CanStep { s with p := q } := hcan
    rw [step_of_not_canStep hcan] at h
    cases h
    exact ⟨q, step_of_not_canStep hcan', hz, hc⟩

/-- Settles O37: a step is blind to a P that has the same Z and C, and keeps the two steps' Z and C the same. -/
theorem unreadFlagsNeverInfluence : Obligations.UnreadFlagsNeverInfluence := by
  intro s s' t hs h
  obtain ⟨q, rfl, hz, hc⟩ := sameButUnreadFlags_iff.mp hs
  obtain ⟨q', h', hz', hc'⟩ := step_withP hz hc h
  exact ⟨_, h', sameButUnreadFlags_iff.mpr ⟨q', rfl, hz', hc'⟩⟩

/-! ### The invariant -/

theorem inFont_of_fontData {p : Platform} {k : Nat} {b : Byte} (h : p.fontData[k]? = some b) :
    p.inFont (p.fontBase + k) = true := by
  obtain ⟨hk, -⟩ := List.getElem?_eq_some_iff.mp h
  exact (p.inFont_iff _).mpr ⟨by omega, by omega⟩

theorem State.Inv.mem_wf {s : State} (hs : s.Inv) : s.mem.wf = true := hs.1

theorem State.Inv.platform_wf {s : State} (hs : s.Inv) : s.platform.WellFormed := hs.2.1

/-- The invariant speaks of the memory and the parameters alone, and of the memory only its form and, under
ROM_WRITE_POLICY = ignore, its bytes in the font ROM. -/
theorem State.Inv.of_fontRead {s t : State} (hs : s.Inv) (hp : t.platform = s.platform) (hwf : t.mem.wf = true)
    (hread : s.platform.romWritePolicy = .ignore → ∀ k, s.platform.inFont k = true → t.mem.read k = s.mem.read k) :
    t.Inv := by
  obtain ⟨-, hplatform, hfont⟩ := hs
  refine ⟨hwf, hp ▸ hplatform, ?_⟩
  rw [FontIntact, hp]
  intro hpol k b hk
  rw [hread hpol _ (inFont_of_fontData hk)]
  exact hfont hpol k b hk

theorem State.Inv.of_mem {s t : State} (hs : s.Inv) (hp : t.platform = s.platform) (hm : t.mem = s.mem) : t.Inv :=
  hs.of_fontRead hp (hm ▸ hs.mem_wf) fun _ _ _ => by rw [hm]

/-- A store that is not dropped lies, under ROM_WRITE_POLICY = ignore, outside the font ROM (R37, R40). -/
theorem State.Inv.write {s : State} (hs : s.Inv) (a : Word) (v : Byte) : (s.write a v).Inv := by
  refine hs.of_fontRead (s.write_platform a v) (State.wf_write a v hs.mem_wf) fun hpol k hk => ?_
  rw [State.write_eq]
  split
  · rfl
  · next hd =>
    refine Memory.read_write_ne _ _ ?_
    rintro rfl
    exact hd (by simp [Platform.dropsWrite, hpol, hk])

/-- A load that does not meet the font ROM and fits in the memory (R55). -/
theorem State.Inv.load {s : State} {a : Nat} {bs : List Byte} (hs : s.Inv)
    (hfont : s.platform.overlapsFont a bs.length = false) (hfits : a + bs.length ≤ 65536) :
    State.Inv { s with mem := s.mem.load a bs } := by
  refine hs.of_fontRead rfl (Memory.wf_load hfits hs.mem_wf) fun _ k hk => ?_
  refine Memory.read_load_outside _ _ _ _ ?_
  by_contra! hin
  have : s.platform.overlapsFont a bs.length = true := (Platform.overlapsFont_iff _ _ _).mpr ⟨k, hk, hin⟩
  simp [hfont] at this

theorem State.inv_resetWith {p : Platform} (hp : p.WellFormed) : (State.resetWith p).Inv :=
  ⟨Memory.wf_load hp.1 Memory.wf_nil, hp, fun _ _ _ hk => Memory.read_load_inside _ _ _ _ _ hk⟩

theorem State.Inv.of_memoryEffect {s t : State} (hs : s.Inv) (hp : t.platform = s.platform)
    (he : MemoryEffect s t) : t.Inv := by
  rcases he with hm | ⟨a, v, hm⟩ | ⟨a, v, b, w, hm⟩
  · exact hs.of_mem hp hm
  · exact (hs.write a v).of_mem (by simpa) hm
  · exact ((hs.write a v).write b w).of_mem (by simpa) hm

theorem exec_keeps_inv {i : Instr} {s t : State} (hs : s.Inv) (h : exec i s = .next t) : t.Inv := by
  obtain ⟨u, hu, ⟨-, hp⟩, -, he⟩ := exec_memory_effect i s
  cases hu.symm.trans h
  exact hs.of_memoryEffect hp he

theorem step_keeps_inv {s t : State} (hs : s.Inv) (h : step s = .next t) : t.Inv := by
  rcases step_cases s with ⟨-, e⟩ | ⟨-, -, -, e⟩ | ⟨-, -, -, -, e⟩ | ⟨-, -, -, -, e⟩ | ⟨-, -, i, n, e⟩ <;> rw [e] at h
  · cases h; exact hs
  · cases h; exact hs.of_mem rfl rfl
  · cases h; exact hs.of_mem rfl rfl
  · cases h
  · refine exec_keeps_inv ?_ h
    exact hs.of_mem rfl rfl

theorem State.Inv.loadProgram {s : State} (hs : s.Inv) (bytes : List Nat) (addr : Word) :
    (s.loadProgram bytes addr).2.Inv := by
  unfold State.loadProgram
  split
  · exact hs
  · split
    · exact hs
    · next hfont hfits => exact hs.load (by simpa using hfont) (by simpa using hfits)

/-! ### The run state -/

theorem State.hostRun_of_idle {s : State} (h : s.runState = .idle) : s.hostRun = { s with runState := .running } := by
  simp only [State.hostRun, h]

theorem State.hostRun_of_ne_idle {s : State} (h : s.runState ≠ .idle) : s.hostRun = s := by
  unfold State.hostRun
  split
  · exact absurd ‹_› h
  · rfl
  · rfl

theorem State.hostStop_of_running {s : State} (h : s.runState = .running) :
    s.hostStop = { s with runState := .idle } := by
  simp only [State.hostStop, h]

theorem State.hostStop_of_ne_running {s : State} (h : s.runState ≠ .running) : s.hostStop = s := by
  unfold State.hostStop
  split
  · rfl
  · exact absurd ‹_› h
  · rfl

theorem State.Inv.hostRun {s : State} (hs : s.Inv) : s.hostRun.Inv := by
  by_cases h : s.runState = .idle
  · rw [State.hostRun_of_idle h]; exact hs.of_mem rfl rfl
  · rw [State.hostRun_of_ne_idle h]; exact hs

theorem State.Inv.hostStop {s : State} (hs : s.Inv) : s.hostStop.Inv := by
  by_cases h : s.runState = .running
  · rw [State.hostStop_of_running h]; exact hs.of_mem rfl rfl
  · rw [State.hostStop_of_ne_running h]; exact hs

/-- Settles O43, command by command. -/
theorem commandKeepsInvariant : Obligations.CommandKeepsInvariant := by
  intro c s t hs h
  cases c with
  | reset => cases h; exact State.inv_resetWith hs.platform_wf
  | step => exact step_keeps_inv hs h
  | run => cases h; exact hs.hostRun
  | stop => cases h; exact hs.hostStop
  | loadProgram bytes addr => cases h; exact hs.loadProgram bytes addr

/-- Settles O47: `run()` acts in `Idle` alone, `stop()` in `Running` alone, and a halted core does not step. -/
theorem runAndStopChangeRunStateOnly : Obligations.RunAndStopChangeRunStateOnly := by
  intro s
  simp only [command, Host.Outcome.next.injEq]
  refine ⟨fun h => ?_, fun h => ?_, fun r h => ?_⟩
  · exact ⟨State.hostRun_of_idle h, State.hostStop_of_ne_running (by simp [h])⟩
  · exact ⟨State.hostRun_of_ne_idle (by simp [h]), State.hostStop_of_running h⟩
  · exact ⟨State.hostRun_of_ne_idle (by simp [h]), State.hostStop_of_ne_running (by simp [h]),
      step_of_not_canStep (by simp [CanStep, h])⟩

/-! ### The run loop -/

theorem runLoop_of_ne_running {s : State} (h : s.runState ≠ .running) (n : Nat) : runLoop n s = .next s := by
  cases n with
  | zero => rfl
  | succ n =>
    unfold runLoop
    split
    · rfl
    · rfl
    · exact absurd ‹_› h

theorem runLoop_succ_of_step {s u : State} (h : s.runState = .running) (hu : step s = .next u) (n : Nat) :
    runLoop (n + 1) s = runLoop n u := by
  simp only [runLoop, h, hu]

/-- A run loop that answers a next state from a running core stepped to a next state and went on from it. -/
theorem step_of_runLoop_succ {m : Nat} {s t : State} (hr : s.runState = .running)
    (h : runLoop (m + 1) s = .next t) : ∃ u, step s = .next u ∧ runLoop m u = .next t := by
  simp only [runLoop, hr] at h
  cases hu : step s with
  | next u => exact ⟨u, rfl, by simpa only [hu] using h⟩
  | fault r => cases r
  | refused r => simp only [hu, reduceCtorEq] at h

/-- Settles O50, by induction on the boundaries before the pause. -/
theorem pauseChangesNoState : Obligations.PauseChangesNoState := by
  intro m
  induction m with
  | zero => intro n s t h; cases h; rw [Nat.zero_add]
  | succ m ih =>
    intro n s t h
    by_cases hr : s.runState = .running
    · obtain ⟨u, hu, hm⟩ := step_of_runLoop_succ hr h
      rw [Nat.succ_add, runLoop_succ_of_step hr hu]
      exact ih n u t hm
    · rw [runLoop_of_ne_running hr] at h
      cases h
      rw [runLoop_of_ne_running hr, runLoop_of_ne_running hr]

/-! ### The status byte -/

/-- Settles O39: the flags are appended from bit 7 down, so each bit is the one flag that its position selects. -/
theorem statusByteLayout : Obligations.StatusByteLayout := by
  intro p
  simp only [Status.toByte, BitVec.getLsbD_append, BitVec.getLsbD_ofBool]
  simp

end Sys2Proof.Machine
end

section
/-! ## Memory: its writers, `MemWrite`, the font ROM and `loadProgram` (R36 to R43, R55)

What each update of the state does to the bytes of the font ROM, said once per update and carried to the step and the
host's commands; and the equations of `MemWrite` and of `loadProgram`, one for each of their branches. -/

namespace Sys2Proof

theorem toNat_byteOf (n : Nat) : (byteOf n).toNat = n % 256 := BitVec.toNat_ofNat n 8

namespace Machine

/-! ### Who writes memory -/

theorem SameMemory.of_mem {s t : State} (h : t.mem = s.mem) : SameMemory s t := State.read_of_mem h

/-- Settles O36: only the meanings of STA, STX and JSR contain a store. -/
theorem memoryWriters : Obligations.MemoryWriters := by
  intro i s
  have h := exec_meaning i
  generalize i.mnemonic = m, exec i = e at h ⊢
  cases h
  case sta => exact ⟨_, rfl, fun _ => .inl rfl⟩
  case stx => exact ⟨_, rfl, fun _ => .inr (.inl rfl)⟩
  case jsr => exact ⟨_, rfl, fun _ => .inr (.inr rfl)⟩
  case lda | ldx | ldy | adc | cmp | cpy => exact ⟨_, rfl, (absurd (SameMemory.of_mem rfl) ·)⟩
  case inx | iny | dex | jmp | nop => exact ⟨_, rfl, (absurd (SameMemory.of_mem rfl) ·)⟩
  case rts => exact ⟨_, execRts_eq s, (absurd (SameMemory.of_mem rfl) ·)⟩
  case beq off =>
    cases hz : s.p.z
    · exact ⟨_, execBeq_untaken off hz, (absurd (SameMemory.of_mem rfl) ·)⟩
    · exact ⟨_, execBeq_taken off hz, (absurd (SameMemory.of_mem rfl) ·)⟩

/-! ### `MemWrite` -/

theorem State.write_of_dropped {s : State} {a : Word} (v : Byte) (h : StoreDropped s.platform a) :
    s.write a v = s := by
  rw [State.write_eq, if_pos ((dropsWrite_iff _ _).mpr h)]

theorem State.write_of_not_dropped {s : State} {a : Word} (v : Byte) (h : ¬ StoreDropped s.platform a) :
    s.write a v = { s with mem := s.mem.write a.toNat v } := by
  rw [State.write_eq, if_neg (mt (dropsWrite_iff _ _).mp h)]

/-- Settles O40: `MemWrite` of a number is `MemWrite` of its low byte, in its two branches. -/
theorem memWriteStoresTheByte : Obligations.MemWriteStoresTheByte := by
  intro s addr v
  refine ⟨State.write_of_dropped (byteOf v), fun h => ⟨?_, ?_, ?_⟩⟩
  · rw [State.writeNat, (State.stored_write s addr (byteOf v)).2 h, toNat_byteOf]
  · intro b hb
    exact State.read_write_ne s _ (List.ne_of_not_mem_cons hb)
  · rw [State.writeNat, State.write_of_not_dropped _ h]

/-! ### The font ROM -/

/-- The parameters are kept and every byte of the font ROM reads the same. -/
def SameFontRom (s t : State) : Prop :=
  t.platform = s.platform ∧ ∀ a, InFontRom s.platform a → t.read a = s.read a

theorem SameFontRom.refl (s : State) : SameFontRom s s := ⟨rfl, fun _ _ => rfl⟩

theorem SameFontRom.of_mem {s t : State} (hp : t.platform = s.platform) (hm : t.mem = s.mem) : SameFontRom s t :=
  ⟨hp, fun a _ => State.read_of_mem hm a⟩

theorem SameFontRom.trans {s t u : State} (hst : SameFontRom s t) (htu : SameFontRom t u) : SameFontRom s u := by
  obtain ⟨hp, hread⟩ := hst
  obtain ⟨hp', hread'⟩ := htu
  refine ⟨hp'.trans hp, fun a ha => ?_⟩
  rw [hread' a (hp ▸ ha), hread a ha]

section
variable {s t : State} (hpol : s.platform.romWritePolicy = .ignore)
include hpol

/-- A store into the font ROM is dropped, and one elsewhere leaves it (R37, R40). -/
theorem sameFontRom_write (a : Word) (v : Byte) : SameFontRom s (s.write a v) := by
  refine ⟨State.write_platform s a v, fun b hb => ?_⟩
  by_cases hba : b = a
  · subst hba
    rw [State.write_of_dropped v ⟨hpol, hb⟩]
  · exact State.read_write_ne s v hba

theorem sameFontRom_of_memoryEffect (hp : t.platform = s.platform) (he : MemoryEffect s t) : SameFontRom s t := by
  rcases he with hm | ⟨a, v, hm⟩ | ⟨a, v, b, w, hm⟩
  · exact .of_mem hp hm
  · exact (sameFontRom_write hpol a v).trans (.of_mem (by simpa) hm)
  · have hpol' : (s.write a v).platform.romWritePolicy = .ignore := by simpa
    exact ((sameFontRom_write hpol a v).trans (sameFontRom_write hpol' b w)).trans (.of_mem (by simpa) hm)

theorem sameFontRom_exec {i : Instr} (h : exec i s = .next t) : SameFontRom s t := by
  obtain ⟨u, hu, ⟨-, hp⟩, -, he⟩ := exec_memory_effect i s
  cases hu.symm.trans h
  exact sameFontRom_of_memoryEffect hpol hp he

theorem sameFontRom_step (h : step s = .next t) : SameFontRom s t := by
  rcases step_cases s with ⟨-, e⟩ | ⟨-, -, -, e⟩ | ⟨-, -, -, -, e⟩ | ⟨-, -, -, -, e⟩ | ⟨-, -, i, n, e⟩ <;> rw [e] at h
  · cases h; exact .refl s
  · cases h; exact .of_mem rfl rfl
  · cases h; exact .of_mem rfl rfl
  · cases h
  · refine SameFontRom.trans ?_ (sameFontRom_exec ?_ h)
    · exact .of_mem rfl rfl
    · exact hpol

end

theorem sameFontRom_hostRun (s : State) : SameFontRom s s.hostRun := by
  by_cases h : s.runState = .idle
  · rw [State.hostRun_of_idle h]; exact .of_mem rfl rfl
  · rw [State.hostRun_of_ne_idle h]; exact .refl s

theorem sameFontRom_hostStop (s : State) : SameFontRom s s.hostStop := by
  by_cases h : s.runState = .running
  · rw [State.hostStop_of_running h]; exact .of_mem rfl rfl
  · rw [State.hostStop_of_ne_running h]; exact .refl s

/-! ### `loadProgram` -/

section
variable {s : State} {bytes : List Nat} {addr : Word}

theorem State.loadProgram_of_overlaps (h : s.platform.overlapsFont addr.toNat bytes.length = true) :
    s.loadProgram bytes addr = (.romOverlap, s) := by
  rw [State.loadProgram, if_pos h]

theorem State.loadProgram_of_exceeds (h : ¬ s.platform.overlapsFont addr.toNat bytes.length = true)
    (hfits : addr.toNat + bytes.length > 65536) : s.loadProgram bytes addr = (.capacityExceeded, s) := by
  rw [State.loadProgram, if_neg h, if_pos hfits]

theorem State.loadProgram_of_fits (h : ¬ s.platform.overlapsFont addr.toNat bytes.length = true)
    (hfits : addr.toNat + bytes.length ≤ 65536) :
    s.loadProgram bytes addr = (.ok, { s with mem := s.mem.load addr.toNat (bytes.map byteOf) }) := by
  rw [State.loadProgram, if_neg h, if_neg (Nat.not_lt.mpr hfits)]

/-- Each byte of the load, at an address that does not wrap. -/
theorem State.read_load_inside (hfits : addr.toNat + bytes.length ≤ 65536) {k b : Nat} (hk : bytes[k]? = some b) :
    State.read { s with mem := s.mem.load addr.toNat (bytes.map byteOf) } (addr + BitVec.ofNat 16 k) = byteOf b := by
  obtain ⟨hlt, -⟩ := List.getElem?_eq_some_iff.mp hk
  have haddr : (addr + BitVec.ofNat 16 k).toNat = addr.toNat + k := by
    rw [BitVec.toNat_add, BitVec.toNat_ofNat]; omega
  rw [State.read, haddr]
  exact Memory.read_load_inside _ _ _ _ _ (by simp [hk])

/-- Every byte outside the load's range. -/
theorem State.read_load_outside {a : Word} (h : a.toNat < addr.toNat ∨ addr.toNat + bytes.length ≤ a.toNat) :
    State.read { s with mem := s.mem.load addr.toNat (bytes.map byteOf) } a = s.read a :=
  Memory.read_load_outside _ _ _ _ (by simpa using h)

end

/-- Settles O49: the model's test for an overlap is an address in both ranges, and then each result is its equation. -/
theorem loadProgramLoadsOrRejects : Obligations.LoadProgramLoadsOrRejects := by
  intro s bytes addr overlaps hoverlaps
  have htest : overlaps ↔ s.platform.overlapsFont addr.toNat bytes.length = true := by
    simp only [hoverlaps, Platform.overlapsFont_iff, Platform.inFont_iff, and_comm]
  rw [htest]
  exact ⟨State.loadProgram_of_overlaps, State.loadProgram_of_exceeds, fun h hfits =>
    ⟨_, State.loadProgram_of_fits h hfits, rfl,
      fun _ b hk => by rw [State.read_load_inside hfits hk, toNat_byteOf],
      fun _ ha => State.read_load_outside ha⟩⟩

/-- `loadProgram` rejects a range that meets the font ROM (R55). -/
theorem sameFontRom_loadProgram (s : State) (bytes : List Nat) (addr : Word) :
    SameFontRom s (s.loadProgram bytes addr).2 := by
  by_cases h : s.platform.overlapsFont addr.toNat bytes.length = true
  · rw [State.loadProgram_of_overlaps h]; exact .refl s
  by_cases hfits : addr.toNat + bytes.length ≤ 65536
  · rw [State.loadProgram_of_fits h hfits]
    refine ⟨rfl, fun a ha => State.read_load_outside ?_⟩
    by_contra! hin
    exact h ((Platform.overlapsFont_iff _ _ _).mpr ⟨a.toNat, (Platform.inFont_iff _ _).mpr ha, hin⟩)
  · rw [State.loadProgram_of_exceeds h (Nat.not_le.mp hfits)]; exact .refl s

/-! ### Commands and steps -/

theorem sameFontRom_command {c : Command} {s t : State} (hpol : s.platform.romWritePolicy = .ignore)
    (hc : c ≠ .reset) (h : command c s = .next t) : SameFontRom s t := by
  cases c with
  | reset => exact absurd rfl hc
  | step => exact sameFontRom_step hpol h
  | run => cases h; exact sameFontRom_hostRun s
  | stop => cases h; exact sameFontRom_hostStop s
  | loadProgram bytes addr => cases h; exact sameFontRom_loadProgram s bytes addr

/-- The reset memory holds FONT_DATA in the font ROM region (R132). -/
theorem fontData_hostReset_read {s : State} {a : Word} (ha : InFontRom s.platform a) :
    s.platform.fontData[a.toNat - s.platform.fontBase]? = some (s.hostReset.read a) := by
  obtain ⟨hbase, hend⟩ := ha
  obtain ⟨b, hb⟩ : ∃ b, s.platform.fontData[a.toNat - s.platform.fontBase]? = some b :=
    ⟨_, List.getElem?_eq_getElem (by omega)⟩
  have h := Memory.read_load_inside [] s.platform.fontBase _ _ _ hb
  rw [Nat.add_sub_cancel' hbase] at h
  rw [hb, ← h]
  rfl

/-- Settles O41: every command but `reset` keeps the font ROM's bytes, and `reset` loads FONT_DATA into an empty
memory. -/
theorem fontRomIsImmutable : Obligations.FontRomIsImmutable := by
  intro c s t hpol _ h a ha
  refine ⟨fun hc => (sameFontRom_command hpol hc h).2 a ha, ?_⟩
  rintro rfl
  cases h
  exact fontData_hostReset_read ha

/-- Settles O42: by what a step can be, from the invariant kept by every store. -/
theorem stepKeepsInvariant : Obligations.StepKeepsInvariant := fun _ _ => step_keeps_inv

end Machine

end Sys2Proof
end

section
/-! ## Encoding and decoding (R56 to R66, R77, R82)

The decoder's answer on an opcode byte for every instruction table; the rows of R62's table as the instructions'; and
the statements about decoding, about a step as the opcode byte decides it, and about an assembled branch. -/

namespace Sys2Proof

/-! ### The decoder's answer by the opcode byte -/

theorem decode_of_form {t : OpcodeTable} {op : Byte} {f : InstrForm} (h : t.form op = some f) (bytes : List Byte) :
    decode t (op :: bytes) = f.complete bytes := by
  simp only [decode, opcodeClass, h]

/-- Operand bytes complete an instruction or run out; they decide no tier (R65). -/
theorem InstrForm.complete_cases (f : InstrForm) (bytes : List Byte) :
    (∃ i rest, f.complete bytes = .instr i rest) ∨ f.complete bytes = .truncated := by
  cases f with
  | noOperand i => exact .inl ⟨i, bytes, rfl⟩
  | byteOperand mk =>
    rcases bytes with _ | ⟨b, rest⟩
    · exact .inr rfl
    · exact .inl ⟨mk b, rest, rfl⟩
  | wordOperand mk =>
    rcases bytes with _ | ⟨lo, _ | ⟨hi, rest⟩⟩
    · exact .inr rfl
    · exact .inr rfl
    · exact .inl ⟨mk (wordOf hi lo), rest, rfl⟩

/-- What the decoder can answer on an opcode byte and the bytes after it. -/
theorem decode_cases (t : OpcodeTable) (op : Byte) (bytes : List Byte) :
    (∃ f, t.form op = some f ∧
      ((∃ i rest, decode t (op :: bytes) = .instr i rest) ∨ decode t (op :: bytes) = .truncated)) ∨
    (t.form op = none ∧ op ∈ haltTierBytes ∧ decode t (op :: bytes) = .unknownOpcode) ∨
    (t.form op = none ∧ op ∉ haltTierBytes ∧ decode t (op :: bytes) = .refusedTier op) := by
  rcases opcodeClass_cases t op with ⟨f, hf, -⟩ | ⟨hf, htier, hclass⟩ | ⟨hf, htier, hclass⟩
  · exact .inl ⟨f, hf, decode_of_form hf bytes ▸ f.complete_cases bytes⟩
  · exact .inr (.inl ⟨hf, htier, by simp only [decode, hclass]⟩)
  · exact .inr (.inr ⟨hf, htier, by simp only [decode, hclass]⟩)

theorem decode_eq_unknownOpcode_iff (t : OpcodeTable) (op : Byte) (bytes : List Byte) :
    decode t (op :: bytes) = .unknownOpcode ↔ t.form op = none ∧ op ∈ haltTierBytes := by
  rcases decode_cases t op bytes with ⟨f, hf, ⟨i, rest, e⟩ | e⟩ | ⟨hf, htier, e⟩ | ⟨hf, htier, e⟩
  · simp [hf, e]
  · simp [hf, e]
  · simp [hf, htier, e]
  · simp [htier, e]

theorem decode_eq_refusedTier_iff (t : OpcodeTable) (op : Byte) (bytes : List Byte) :
    decode t (op :: bytes) = .refusedTier op ↔ t.form op = none ∧ op ∉ haltTierBytes := by
  rcases decode_cases t op bytes with ⟨f, hf, ⟨i, rest, e⟩ | e⟩ | ⟨hf, htier, e⟩ | ⟨hf, htier, e⟩
  · simp [hf, e]
  · simp [hf, e]
  · simp [htier, e]
  · simp [hf, htier, e]

/-- A row's opcode byte and the operand bytes of an instruction of its mnemonic and mode decode to that instruction. -/
theorem decode_of_row {t : OpcodeTable} {op : Byte} {i : Instr} (ht : t.WellFormed) (hrow : Machine.HasRow t op i)
    (rest : List Byte) : decode t (op :: i.operandBytes ++ rest) = .instr i rest := by
  obtain ⟨f, hf, hcomplete⟩ := instrForm_self i
  have hform : t.form op = some f := (OpcodeTable.form_of_row ht hrow).trans hf
  rw [List.cons_append, decode_of_form hform, hcomplete]

/-- The opcode byte's form fixes the mnemonic and mode of every instruction decoded from it, by any operand bytes. -/
theorem mnemonic_mode_of_decode {t : OpcodeTable} {op : Byte} {f : InstrForm} (hf : t.form op = some f) :
    ∃ m mode, ∀ bytes i rest, decode t (op :: bytes) = .instr i rest → i.mnemonic = m ∧ i.mode = mode := by
  obtain ⟨r, -, -, hr⟩ := OpcodeTable.row_of_form hf
  refine ⟨r.mnemonic, r.mode, fun bytes i rest h => ?_⟩
  rw [decode_of_form hf] at h
  obtain ⟨hm, hmode, -⟩ := instrForm_complete hr h
  exact ⟨hm, hmode⟩

/-! ### R62's table -/

theorem OpcodeTable.r62_wellFormed : OpcodeTable.r62.WellFormed := by decide

/-- R62 lists no pair of mnemonic and mode twice. -/
theorem OpcodeTable.r62_mnemonic_mode_nodup :
    (OpcodeTable.r62.map fun r => (r.mnemonic, r.mode)).Nodup := by decide

theorem row_mem_r62 (i : Instr) : ⟨i.opcode, i.mnemonic, i.mode⟩ ∈ OpcodeTable.r62 := by
  cases i <;> exact of_decide_eq_true rfl

/-- In R62's table an instruction's mnemonic and mode stand in the row of its opcode byte alone. -/
theorem hasRow_r62_iff {op : Byte} {i : Instr} : Machine.HasRow OpcodeTable.r62 op i ↔ op = i.opcode := by
  constructor
  · intro h
    exact congrArg OpcodeRow.opcode
      (List.inj_on_of_nodup_map OpcodeTable.r62_mnemonic_mode_nodup h (row_mem_r62 i) rfl)
  · rintro rfl
    exact row_mem_r62 i

/-- The form's instruction with every operand byte 0. -/
def InstrForm.withZeroOperand : InstrForm → Instr
  | .noOperand i => i
  | .byteOperand mk => mk 0
  | .wordOperand mk => mk 0

/-- Each row of R62 is the row of the instruction that its own form makes. -/
theorem form_row_of_mem_r62 :
    ∀ r ∈ OpcodeTable.r62, ∃ f ∈ instrForm r.mnemonic r.mode,
      r = ⟨f.withZeroOperand.opcode, f.withZeroOperand.mnemonic, f.withZeroOperand.mode⟩ := by decide

theorem mem_r62_iff (r : OpcodeRow) :
    r ∈ OpcodeTable.r62 ↔ ∃ i : Instr, r = ⟨i.opcode, i.mnemonic, i.mode⟩ := by
  constructor
  · intro h
    obtain ⟨f, -, hr⟩ := form_row_of_mem_r62 r h
    exact ⟨f.withZeroOperand, hr⟩
  · rintro ⟨i, rfl⟩
    exact row_mem_r62 i

theorem hasDescriptor_r62_iff (op : Byte) :
    Machine.HasDescriptor OpcodeTable.r62 op ↔ ∃ i : Instr, i.opcode = op := by
  constructor
  · rintro ⟨r, hr, rfl⟩
    obtain ⟨i, rfl⟩ := (mem_r62_iff r).mp hr
    exact ⟨i, rfl⟩
  · rintro ⟨i, rfl⟩
    exact ⟨_, row_mem_r62 i, rfl⟩

/-! ### The tiers of R62's table -/

/-- R63 lists no opcode byte of R62. -/
theorem haltTier_not_hasDescriptor :
    ∀ op ∈ haltTierBytes, ¬ Machine.HasDescriptor OpcodeTable.r62 op := by
  unfold Machine.HasDescriptor
  decide

/-- R64 lists exactly the bytes that neither R62 nor R63 lists. -/
theorem mem_refusedTierBytes_iff :
    ∀ op : Byte, op ∈ refusedTierBytes ↔ ¬ Machine.HasDescriptor OpcodeTable.r62 op ∧ op ∉ haltTierBytes := by
  unfold Machine.HasDescriptor
  decide

theorem hasDescriptor_r62_iff_not_mem_tiers (op : Byte) :
    Machine.HasDescriptor OpcodeTable.r62 op ↔ op ∉ haltTierBytes ∧ op ∉ refusedTierBytes := by
  have hhalt := haltTier_not_hasDescriptor op
  have hrefused := mem_refusedTierBytes_iff op
  tauto

theorem form_r62_eq_none_iff (op : Byte) :
    OpcodeTable.r62.form op = none ↔ ¬ Machine.HasDescriptor OpcodeTable.r62 op :=
  OpcodeTable.form_eq_none_iff OpcodeTable.r62_wellFormed op

/-! ### The statements about the decoder -/

/-- R62's rows decode R62's encodings. -/
theorem decode_encode (i : Instr) (rest : List Byte) : decode OpcodeTable.r62 (encode i ++ rest) = .instr i rest :=
  decode_of_row OpcodeTable.r62_wellFormed (row_mem_r62 i) rest

/-- Settles O1: a row of a legal table decides its byte, and the form of an instruction completes on its operand
bytes; R62's table has a row for each instruction. -/
theorem decodeOfEncodeIsTheInstruction : Obligations.DecodeOfEncodeIsTheInstruction :=
  ⟨decode_encode, fun _ _ _ rest ht hrow => decode_of_row ht hrow rest⟩

/-- Settles O2: the answer comes from a row and the bytes are its opcode byte and the operand bytes; in R62's table
that byte is the instruction's. -/
theorem decodedBytesAreTheEncoding : Obligations.DecodedBytesAreTheEncoding := by
  refine ⟨fun bytes i rest h => ?_, fun _ _ _ _ => row_and_bytes_of_decode⟩
  obtain ⟨op, hrow, rfl⟩ := row_and_bytes_of_decode h
  rw [hasRow_r62_iff.mp hrow]
  rfl

/-- Settles O3: each word is the encoding of its instruction. -/
theorem sampleWordsDecode : Obligations.SampleWordsDecode :=
  ⟨decode_encode (.ldaImm 0x7F) [], decode_encode (.staIndY 0x80) [], decode_encode (.adcAbsY 0x0013) [],
    decode_encode (.cmpAbsX 0x00FF) [], decode_encode .dex [], decode_encode (.jsr 0x1234) [],
    decode_encode (.beq 0x80) []⟩

/-- Settles O4: the decoder's tiers are those of the bytes without a descriptor, which R63's and R64's lists divide. -/
theorem everyOpcodeByteHasOneTier : Obligations.EveryOpcodeByteHasOneTier := by
  intro op bytes
  rw [decode_eq_unknownOpcode_iff, decode_eq_refusedTier_iff, form_r62_eq_none_iff, ← hasDescriptor_r62_iff]
  refine ⟨?_, mem_refusedTierBytes_iff op, hasDescriptor_r62_iff_not_mem_tiers op,
    hasDescriptor_r62_iff_not_mem_tiers op⟩
  exact ⟨fun h => ⟨haltTier_not_hasDescriptor op h, h⟩, fun h => h.2⟩

/-- Settles O52: the table is legal, has the row of each instruction, and each row is that of an instruction. -/
theorem tableRowsAreTheInstructions : Obligations.TableRowsAreTheInstructions :=
  ⟨rfl, OpcodeTable.r62_wellFormed, mem_r62_iff⟩

/-- Settles O53: the decoder's tier and form are functions of the opcode byte. -/
theorem dispatchDependsOnOpcodeAlone : Obligations.DispatchDependsOnOpcodeAlone := by
  intro t op bytes bytes'
  simp only [decode_eq_unknownOpcode_iff, decode_eq_refusedTier_iff]
  refine ⟨id, id, fun i j rest rest' hi hj => ?_⟩
  rcases decode_cases t op bytes with ⟨f, hf, -⟩ | ⟨-, -, e⟩ | ⟨-, -, e⟩
  · obtain ⟨m, mode, h⟩ := mnemonic_mode_of_decode hf
    obtain ⟨him, himode⟩ := h _ _ _ hi
    obtain ⟨hjm, hjmode⟩ := h _ _ _ hj
    exact ⟨him.trans hjm.symm, himode.trans hjmode.symm⟩
  · simp [e] at hi
  · simp [e] at hi

namespace Machine

/-! ### The statements about the step -/

/-- Settles O8: the three bytes at PC are the encoding and more, so they decode to the instruction. -/
theorem stepRunsEncodedInstruction : Obligations.StepRunsEncodedInstruction := by
  intro s op i hcan ht hrow hbytes
  have hop : s.read s.pc = op := by
    rw [Instr.length_eq_operandBytes_length, State.bytesAt] at hbytes
    exact (List.cons.inj hbytes).1
  have hlen : i.length ≤ 3 := Laws.Mode.length_le i.mode
  have hdecode : decode s.platform.opcodeTable (s.bytesAt s.pc 3) =
      .instr i (s.bytesAt (s.pc + BitVec.ofNat 16 i.length) (3 - i.length)) := by
    rw [← Nat.add_sub_cancel' hlen, State.bytesAt_add, hbytes, Nat.add_sub_cancel_left]
    exact decode_of_row ht hrow _
  rw [stepRunsDecodedInstruction s i _ hcan hdecode, hop]

/-- A step is refused exactly on a byte with no form that R63 does not list, under the default policy. -/
theorem step_eq_refused_iff (s : State) (r : Refusal) :
    step s = .refused r ↔
      CanStep s ∧ s.platform.opcodeTable.form (s.read s.pc) = none ∧ s.read s.pc ∉ haltTierBytes ∧
        s.platform.unlistedOpcodePolicy = .refuseDocumented ∧ r = .refusedOpcode (s.read s.pc) := by
  rcases step_cases s with ⟨hcan, e⟩ | ⟨-, -, htier, e⟩ | ⟨-, -, -, hpol, e⟩ | ⟨hcan, hf, htier, hpol, e⟩ |
    ⟨-, ⟨f, hf⟩, i, n, e⟩
  · simp [e, hcan]
  · simp [e, htier]
  · simp [e, hpol]
  · simp [e, hcan, hf, htier, hpol, eq_comm]
  · obtain ⟨t, ht, -⟩ := exec_memory_effect i
      { s with pc := s.pc + n, cycles := s.cycles + s.platform.baseCycles (s.read s.pc) i }
    simp [e, ht, hf]

/-- Settles O11: by what a step can be; in R62's table the bytes are those of R64. -/
theorem stepRefusesExactlyRefusedBytes : Obligations.StepRefusesExactlyRefusedBytes := by
  refine ⟨fun s r ht => ?_, fun s r ht => ?_⟩
  · rw [step_eq_refused_iff, OpcodeTable.form_eq_none_iff ht]
  · rw [step_eq_refused_iff, ht, form_r62_eq_none_iff, mem_refusedTierBytes_iff, and_assoc]

end Machine

/-! ### The assembled branch -/

theorem toInt_ofNat_emod {d : Int} (hlow : -128 ≤ d) (hhigh : d ≤ 127) :
    (BitVec.ofNat 8 (d % 256).toNat).toInt = d := by
  rw [BitVec.toInt_ofNat', Int.toNat_of_nonneg (by omega)]
  exact (Int.emod_bmod d 256).trans (Int.bmod_eq_of_le (by omega) (by omega))

/-- A branch has an offset byte exactly when a byte's signed value is the target's distance from the following
instruction (R77). -/
theorem Asm.branchOffset_eq_some_iff (line target : Nat) (off : Byte) :
    branchOffset line target = some off ↔ off.toInt = (target : Int) - (line + 2) := by
  have hlow := BitVec.le_toInt off
  have hhigh := BitVec.toInt_lt (x := off)
  simp only [branchOffset]
  split
  next hrange =>
    rw [Option.some_inj, ← BitVec.toInt_inj, toInt_ofNat_emod hrange.1 hrange.2, eq_comm]
  next hrange =>
    refine ⟨nofun, fun h => absurd ?_ hrange⟩
    omega

theorem Asm.branchOffset_eq_none_iff (line target : Nat) :
    branchOffset line target = none ↔ (target : Int) - (line + 2) < -128 ∨ 127 < (target : Int) - (line + 2) := by
  simp only [branchOffset, ite_eq_right_iff, reduceCtorEq, imp_false, not_and_or, not_le]

/-- The target of a branch whose offset is the target's distance from PC-after-fetch, also where PC-after-fetch wraps
(R91). -/
theorem Machine.State.branchTarget_eq {s : State} {line target : Word} {off : Byte} (hpc : s.pc = line + 2)
    (hoff : off.toInt = (target.toNat : Int) - (line.toNat + 2)) : s.branchTarget off = target := by
  have hsext : sext16 off = BitVec.ofInt 16 off.toInt := rfl
  apply BitVec.eq_of_toNat_eq
  rw [State.branchTarget, hpc, hsext, hoff, BitVec.toNat_add, BitVec.toNat_add, BitVec.toNat_ofInt]
  have htarget := target.isLt
  have hline := line.isLt
  simp only [BitVec.ofNat_eq_ofNat, BitVec.toNat_ofNat, Nat.reducePow, Nat.reduceMod, Nat.cast_ofNat, Nat.mod_add_mod]
  omega

/-- Settles O51: the offset byte is the signed distance that a taken BEQ adds to PC-after-fetch. -/
theorem assembledBranchReachesTarget : Obligations.AssembledBranchReachesTarget := by
  refine fun s line target off => ⟨fun hoff hpc hz => ?_, Asm.branchOffset_eq_none_iff _ _⟩
  refine ⟨_, Machine.execBeq_taken off hz, ?_⟩
  exact Machine.State.branchTarget_eq hpc ((Asm.branchOffset_eq_some_iff _ _ _).mp hoff)

end Sys2Proof
end

section
/-! ## PC after a step, and the addressing modes (R85 to R96)

The effective address and the page cross of an index addition as numbers, the base that Indirect Indexed,Y reads, and
the value and penalty of a read operand. -/

namespace Sys2Proof.Machine

/-! ### PC after a step -/

/-- An instruction that does not transfer control completes with the PC it started from, PC-after-fetch (R18, R96). -/
theorem exec_keeps_pc {i : Instr} {s : State} (h : ¬ Claims.TransfersControl i s) :
    ∃ t, exec i s = .next t ∧ t.pc = s.pc := by
  obtain ⟨t, ht, -, -, -, -, hpc⟩ := registerWriters i s
  exact ⟨t, ht, not_imp_comm.mp hpc h⟩

/-- Settles O9: the step is the instruction's `exec` from PC-after-fetch, and only a transfer of control writes PC. -/
theorem stepMovesPcPastInstruction : Obligations.StepMovesPcPastInstruction := by
  intro s op i hcan htable hrow hbytes hstays
  rw [stepRunsEncodedInstruction s op i hcan htable hrow hbytes]
  obtain ⟨t, ht, hpc⟩ := exec_keeps_pc (i := i) (s := { s with
    pc := s.pc + BitVec.ofNat 16 i.length, cycles := s.cycles + s.platform.baseCycles op i }) hstays
  refine ⟨t, ht, ?_⟩
  rw [hpc, BitVec.toNat_add, BitVec.toNat_ofNat, Nat.add_mod_mod]

/-! ### Effective addresses and page crosses -/

theorem crossesPage_iff (base : Word) (index : Byte) :
    crossesPage base index = true ↔ base.toNat / 256 ≠ (base.toNat + index.toNat) % 65536 / 256 := by
  rw [crossesPage, decide_eq_true_iff, hiByte_ne_iff, toNat_indexed]

theorem zext16_eq_ofNat (b : Byte) : zext16 b = BitVec.ofNat 16 b.toNat := by
  rw [← toNat_zext16, BitVec.ofNat_toNat, BitVec.setWidth_eq]

/-- The pointer's high byte is read at the next address of page 0, which wraps (R90). -/
theorem State.toNat_pointerBase (s : State) (ptr : Byte) :
    (s.pointerBase ptr).toNat =
      (s.read (BitVec.ofNat 16 ((ptr.toNat + 1) % 256))).toNat * 256 + (s.read (BitVec.ofNat 16 ptr.toNat)).toNat := by
  have hnext : (ptr + 1).toNat = (ptr.toNat + 1) % 256 := BitVec.toNat_add ptr 1
  rw [State.pointerBase, toNat_wordOf, zext16_eq_ofNat, zext16_eq_ofNat, hnext]

/-- Settles O13: the direct modes do not index, and the indexed ones add X or Y to their operand. -/
theorem directAndIndexedAddresses : Obligations.DirectAndIndexedAddresses := fun s zp w =>
  ⟨toNat_zext16 zp, rfl, rfl, rfl,
    toNat_indexed w s.x, crossesPage_iff w s.x, toNat_indexed w s.y, crossesPage_iff w s.y⟩

/-- Settles O14: the mode adds Y to the base that the pointer's two bytes make. -/
theorem indirectIndexedAddress : Obligations.IndirectIndexedAddress := by
  rintro s p lo hi base rfl rfl rfl
  rw [← State.toNat_pointerBase]
  exact ⟨toNat_indexed _ _, crossesPage_iff _ _⟩

/-! ### Read operands -/

/-- Settles O15: by the two kinds of read operand; the penalty of a memory operand is its page cross as a number. -/
theorem readOperandValueAndPenalty : Obligations.ReadOperandValueAndPenalty := by
  intro s v m
  refine ⟨rfl, rfl, rfl, fun hcrossed => ?_, fun hcrossed => ?_⟩
  · rw [ReadOperand.penalty, hcrossed]; rfl
  · rw [ReadOperand.penalty, hcrossed]; rfl

end Sys2Proof.Machine
end

section
/-! ## Loads and stores (R97 to R101)

Each form of a load or a store is one call of the shared operation with the form's operand, so what an instruction does
is said once for each operation, for any operand, and each statement lists its forms. -/

namespace Sys2Proof.Machine

open Claims

section
variable {op : Byte} {i : Instr} {o : ReadOperand} (hop : i.opcode = op)
include hop

theorem loadsA_of_exec (hexec : ∀ s, exec i s = loadA o s) : LoadsA op i o :=
  ⟨hop, fun s => ⟨_, (hexec s).trans (loadA_eq o s), rfl, hasZNOf_setZN _ _, rfl, rfl, ⟨rfl, rfl, rfl⟩, rfl, rfl,
    ⟨rfl, rfl, rfl, rfl⟩, SameMemory.of_mem rfl, rfl⟩⟩

theorem loadsX_of_exec (hexec : ∀ s, exec i s = loadX o s) : LoadsX op i o :=
  ⟨hop, fun s => ⟨_, (hexec s).trans (loadX_eq o s), rfl, hasZNOf_setZN _ _, rfl, rfl, ⟨rfl, rfl, rfl⟩, rfl, rfl,
    ⟨rfl, rfl, rfl, rfl⟩, SameMemory.of_mem rfl, rfl⟩⟩

theorem loadsY_of_exec (hexec : ∀ s, exec i s = loadY o s) : LoadsY op i o :=
  ⟨hop, fun s => ⟨_, (hexec s).trans (loadY_eq o s), rfl, hasZNOf_setZN _ _, rfl, rfl, ⟨rfl, rfl, rfl⟩, rfl, rfl,
    ⟨rfl, rfl, rfl, rfl⟩, SameMemory.of_mem rfl, rfl⟩⟩

/-- The one `MemWrite` of a store stores its byte or is dropped, reaches no other address and no other field (R37). -/
theorem storesRegister_of_exec {reg : State → Byte} {m : MemOperand}
    (hexec : ∀ s, exec i s = storeByte m (reg s) s) : StoresRegister reg op i m := by
  refine ⟨hop, fun s => ⟨s.write (m.ea s) (reg s), (hexec s).trans (storeByte_eq m (reg s) s), ?_⟩⟩
  have hother : SameMemoryBut [m.ea s] s (s.write (m.ea s) (reg s)) := fun _ ha =>
    State.read_write_ne s _ (List.ne_of_not_mem_cons ha)
  have hframe : KeepsSpPc s (s.write (m.ea s) (reg s)) :=
    ⟨State.write_sp .., State.write_pc .., State.write_runState .., State.write_platform ..⟩
  exact ⟨State.stored_write s _ _, hother, State.write_a .., State.write_x .., State.write_y .., State.write_p ..,
    hframe, State.write_cycles ..⟩

end

/-- Settles O16: every form is `loadA` of its operand. -/
theorem ldaLoadsOperand : Obligations.LdaLoadsOperand := by
  refine ⟨?_, ?_, ?_, ?_, ?_, ?_⟩ <;> exact fun _ => loadsA_of_exec rfl fun _ => rfl

/-- Settles O17: every form is `loadX` of its operand. -/
theorem ldxLoadsOperand : Obligations.LdxLoadsOperand := by
  refine ⟨?_, ?_, ?_, ?_⟩ <;> exact fun _ => loadsX_of_exec rfl fun _ => rfl

/-- Settles O18: every form is `loadY` of its operand. -/
theorem ldyLoadsOperand : Obligations.LdyLoadsOperand := by
  refine ⟨?_, ?_, ?_, ?_⟩ <;> exact fun _ => loadsY_of_exec rfl fun _ => rfl

/-- Settles O19: every form is the store of A at its effective address. -/
theorem staStoresAccumulator : Obligations.StaStoresAccumulator := by
  refine ⟨?_, ?_, ?_, ?_, ?_⟩ <;> exact fun _ => storesRegister_of_exec rfl fun _ => rfl

/-- Settles O20: both forms are the store of X at their effective address. -/
theorem stxStoresX : Obligations.StxStoresX := by
  refine ⟨?_, ?_⟩ <;> exact fun _ => storesRegister_of_exec rfl fun _ => rfl

end Sys2Proof.Machine
end

section
/-! ## Addition and comparison (R102 to R106)

Each form of ADC, CMP and CPY is one call of the shared operation with the form's operand, so what an instruction does
is said once for each operation, for any operand, and each statement lists its forms. V is read as a condition on three
bits 7, and from there as the range of the signed sum. -/

namespace Sys2Proof.Machine

open Claims

/-! ### V as a condition on bits 7, and as signed overflow (R106) -/

theorem b2n_le_one (f : Bool) : b2n f ≤ 1 := by
  cases f <;> decide

/-- The mask `0x80` picks bit 7. -/
theorem and_signMask_ne_zero_iff (r : Byte) : r &&& 0x80 ≠ 0 ↔ r.msb = true := by
  have hmask : r &&& 0x80 = if r.getLsbD 7 then 0x80 else 0 := BitVec.and_twoPow r 7
  rw [hmask, BitVec.msb_eq_getLsbD_last]
  cases r.getLsbD 7 <;> decide

theorem adcOverflow_iff_msb (a m r : Byte) : adcOverflow a m r = true ↔ a.msb = m.msb ∧ r.msb ≠ a.msb := by
  rw [adcOverflow, decide_eq_true_iff, and_signMask_ne_zero_iff, BitVec.msb_and, BitVec.msb_not, BitVec.msb_xor,
    BitVec.msb_xor]
  cases a.msb <;> cases m.msb <;> cases r.msb <;> decide

theorem toNat_adcResult (a m : Byte) (carry : Bool) :
    (adcResult a m carry).toNat = (a.toNat + m.toNat + b2n carry) % 256 := BitVec.toNat_ofNat _ 8

/-- A byte's bit 7 and its signed value, as conditions on its unsigned value. -/
theorem msb_toInt_cases (r : Byte) :
    (r.msb = false ∧ r.toNat < 128 ∧ r.toInt = r.toNat) ∨ (r.msb = true ∧ 128 ≤ r.toNat ∧ r.toInt = r.toNat - 256) := by
  have hr := r.isLt
  rw [BitVec.toInt_eq_toNat_cond, BitVec.msb_eq_decide]
  by_cases h : r.toNat < 128
  · exact .inl ⟨by simpa using h, h, if_pos (by omega)⟩
  · exact .inr ⟨by simpa using h, by omega, if_neg (by omega)⟩

/-- Operands with different bits 7 have a sum in range; with equal ones the result's bit 7 tells whether it left it. -/
theorem adcOverflow_iff_toInt (a m : Byte) (carry : Bool) :
    adcOverflow a m (adcResult a m carry) = true ↔
      a.toInt + m.toInt + b2n carry < -128 ∨ 127 < a.toInt + m.toInt + b2n carry := by
  have hcarry := b2n_le_one carry
  have hresult : (adcResult a m carry).msb = decide (128 ≤ (a.toNat + m.toNat + b2n carry) % 256) := by
    rw [BitVec.msb_eq_decide, toNat_adcResult]
  rw [adcOverflow_iff_msb, hresult]
  obtain ⟨ha, _, _⟩ | ⟨ha, _, _⟩ := msb_toInt_cases a <;>
    obtain ⟨hm, _, _⟩ | ⟨hm, _, _⟩ := msb_toInt_cases m <;> rw [ha, hm]
  · -- both from 0 up: the sum can only be too large, and then bit 7 is set
    simp only [true_and, ne_eq, decide_eq_false_iff_not]
    omega
  · simp only [Bool.false_eq_true, false_and, false_iff]
    omega
  · simp only [Bool.true_eq_false, false_and, false_iff]
    omega
  · -- both below 0: the sum can only be too small, and then bit 7 is clear
    simp only [true_and, ne_eq, decide_eq_true_iff]
    omega

/-! ### What a compare's flags say of the two bytes (R103, R104) -/

theorem afterCompare_z_iff (p : Status) (r m : Byte) : (p.afterCompare r m).z = true ↔ r.toNat = m.toNat := by
  rw [Status.afterCompare_z, decide_eq_true_iff, BitVec.toNat_inj]

theorem afterCompare_n_iff (p : Status) (r m : Byte) :
    (p.afterCompare r m).n = true ↔ 128 ≤ (r.toNat + 256 - m.toNat) % 256 := by
  have hdiff : (r - m).toNat = (r.toNat + 256 - m.toNat) % 256 := by bv_omega
  rw [Status.afterCompare_n, negativeFlag_iff, hdiff]

theorem afterCompare_c_iff (p : Status) (r m : Byte) : (p.afterCompare r m).c = true ↔ m.toNat ≤ r.toNat := by
  rw [Status.afterCompare_c, decide_eq_true_iff]

/-! ### The shared operations -/

section
variable {op : Byte} {i : Instr} {o : ReadOperand}

theorem addsWithCarry_of_exec (hop : i.opcode = op) (hexec : ∀ s, exec i s = addWithCarry o s) :
    AddsWithCarry op i o :=
  ⟨hop, fun s => ⟨_, (hexec s).trans (addWithCarry_eq o s), toNat_adcResult _ _ _, decide_eq_true_iff,
    decide_eq_true_iff, hasZNOf_setZN _ _, ⟨rfl, rfl, rfl⟩, rfl, rfl, ⟨rfl, rfl, rfl, rfl⟩, SameMemory.of_mem rfl, rfl⟩⟩

theorem overflowsSigned_of_exec (hexec : ∀ s, exec i s = addWithCarry o s) : OverflowsSigned i o := fun s =>
  ⟨_, (hexec s).trans (addWithCarry_eq o s), adcOverflow_iff_toInt _ _ _, adcOverflow_iff_msb _ _ _⟩

theorem compares_of_exec {reg : State → Byte} (hop : i.opcode = op)
    (hexec : ∀ s, exec i s = compareWith (reg s) o s) : Compares reg op i o :=
  ⟨hop, fun s => ⟨_, (hexec s).trans (compareWith_eq (reg s) o s), afterCompare_z_iff _ _ _, afterCompare_n_iff _ _ _,
    afterCompare_c_iff _ _ _, rfl, ⟨rfl, rfl, rfl⟩, rfl, rfl, rfl, ⟨rfl, rfl, rfl, rfl⟩, SameMemory.of_mem rfl, rfl⟩⟩

end

/-- Settles O21: every form is `addWithCarry` of its operand. -/
theorem adcAddsWithCarry : Obligations.AdcAddsWithCarry := by
  refine ⟨?_, ?_, ?_, ?_, ?_, ?_⟩ <;> exact fun _ => addsWithCarry_of_exec rfl fun _ => rfl

/-- Settles O22: every form is `addWithCarry`, whose V is the signed overflow of the sum with the carry. -/
theorem adcOverflowIsSignedOverflow : Obligations.AdcOverflowIsSignedOverflow := by
  refine ⟨?_, ?_, ?_, ?_, ?_, ?_⟩ <;> exact fun _ => overflowsSigned_of_exec fun _ => rfl

/-- Settles O23: every form is `compareWith` of A and its operand. -/
theorem cmpComparesAccumulator : Obligations.CmpComparesAccumulator := by
  refine ⟨?_, ?_, ?_, ?_, ?_, ?_⟩ <;> exact fun _ => compares_of_exec rfl fun _ => rfl

/-- Settles O24: every form is `compareWith` of Y and its operand. -/
theorem cpyComparesY : Obligations.CpyComparesY := by
  refine ⟨?_, ?_, ?_⟩ <;> exact fun _ => compares_of_exec rfl fun _ => rfl

end Sys2Proof.Machine
end

section
/-! ## Increments and decrements (R107 to R109)

INX, INY and DEX replace one index register and set Z and N from its new value, so their frame is said once, for any
new values of X and Y; what is left to each is its arithmetic modulo 256. -/

namespace Sys2Proof.Machine

open Claims

theorem execInx_eq (s : State) : execInx s = .next (State.setZN { s with x := s.x + 1 } (s.x + 1)) := rfl

theorem execIny_eq (s : State) : execIny s = .next (State.setZN { s with y := s.y + 1 } (s.y + 1)) := rfl

theorem execDex_eq (s : State) : execDex s = .next (State.setZN { s with x := s.x - 1 } (s.x - 1)) := rfl

/-- Minus one is plus 255 modulo 256, which is how R109 reads on natural numbers. -/
theorem toNat_sub_one (v : Byte) : (v - 1).toNat = (v.toNat + 255) % 256 := by
  rw [BitVec.toNat_sub, Nat.add_comm]; rfl

/-- Setting Z and N from `r` after an update of the index registers alone keeps everything else. -/
theorem counts_setZN_index (s : State) (x y r : Byte) : Counts r s (State.setZN { s with x := x, y := y } r) :=
  ⟨hasZNOf_setZN s.p r, rfl, rfl, ⟨rfl, rfl, rfl⟩, rfl, ⟨rfl, rfl, rfl, rfl⟩, SameMemory.of_mem rfl, rfl⟩

/-- Settles O25: X is updated, Y is as before. -/
theorem inxIncrementsX : Obligations.InxIncrementsX :=
  ⟨rfl, fun s => ⟨_, execInx_eq s, BitVec.toNat_add s.x 1, rfl, counts_setZN_index s (s.x + 1) s.y (s.x + 1)⟩⟩

/-- Settles O26: Y is updated, X is as before. -/
theorem inyIncrementsY : Obligations.InyIncrementsY :=
  ⟨rfl, fun s => ⟨_, execIny_eq s, BitVec.toNat_add s.y 1, rfl, counts_setZN_index s s.x (s.y + 1) (s.y + 1)⟩⟩

/-- Settles O27: X is updated, Y is as before; the decrement wraps from 0 to 255. -/
theorem dexDecrementsX : Obligations.DexDecrementsX :=
  ⟨rfl, fun s => ⟨_, execDex_eq s, toNat_sub_one s.x, rfl, counts_setZN_index s (s.x - 1) s.y (s.x - 1)⟩⟩

end Sys2Proof.Machine
end

section
/-! ## Control transfer and NOP (R110 to R116)

The two pushes of a JSR as two stores at different stack addresses, the return address as a number, the branch target
and its penalty in integer arithmetic, and the frame that the transfers without a store share. -/

namespace Sys2Proof.Machine

open Claims

/-! ### The stores of two pushes -/

theorem stackAddress_sub_one_ne (sp : Byte) : stackAddress (sp - 1) ≠ stackAddress sp := fun h => by
  have hsp := congrArg BitVec.toNat (stackAddress_injective h)
  rw [toNat_sub_one] at hsp
  omega

section
variable (s : State) (v w : Byte)

theorem State.stored_push : Stored s (s.push v) (stackAddress s.sp) v := State.stored_write s _ v

theorem State.push_read_ne {b : Word} (h : b ≠ stackAddress s.sp) : (s.push v).read b = s.read b :=
  State.read_write_ne s v h

theorem State.stored_push_push_fst : Stored s ((s.push v).push w) (stackAddress s.sp) v := by
  have hkept : ((s.push v).push w).read (stackAddress s.sp) = (s.push v).read (stackAddress s.sp) := by
    apply State.push_read_ne
    rw [State.push_sp]
    exact (stackAddress_sub_one_ne s.sp).symm
  rw [Stored, hkept]
  exact s.stored_push v

theorem State.stored_push_push_snd : Stored s ((s.push v).push w) (stackAddress (s.sp - 1)) w := by
  have hstored := (s.push v).stored_push w
  rwa [Stored, State.push_platform, State.push_sp, s.push_read_ne v (stackAddress_sub_one_ne s.sp)] at hstored

theorem State.sameMemoryBut_push_push :
    SameMemoryBut [stackAddress s.sp, stackAddress (s.sp - 1)] s ((s.push v).push w) := by
  intro b hb
  obtain ⟨hfst, hsnd⟩ := List.ne_and_not_mem_of_not_mem_cons hb
  rw [State.push_read_ne _ w (by rw [State.push_sp]; exact List.ne_of_not_mem_cons hsnd), s.push_read_ne v hfst]

theorem State.keepsRegisters_push_push : KeepsRegisters s ((s.push v).push w) := by
  simp only [KeepsRegisters, SameControl, State.push_a, State.push_x, State.push_y, State.push_p, State.push_runState,
    State.push_platform, and_self]

end

/-! ### Bytes and addresses as numbers -/

theorem hiByte_eq_ofNat (w : Word) : hiByte w = BitVec.ofNat 8 (w.toNat / 256) := by
  rw [← toNat_hiByte, BitVec.ofNat_toNat, BitVec.setWidth_eq]

theorem loByte_eq_ofNat (w : Word) : loByte w = BitVec.ofNat 8 (w.toNat % 256) := by
  rw [← toNat_loByte, BitVec.ofNat_toNat, BitVec.setWidth_eq]

/-- The target is PC-after-fetch plus the signed offset, modulo 65536 (R91). -/
theorem State.toNat_branchTarget (s : State) (off : Byte) :
    ((s.branchTarget off).toNat : Int) = ((s.pc.toNat : Int) + off.toInt) % 65536 := by
  have hsext : sext16 off = BitVec.ofInt 16 off.toInt := rfl
  rw [State.branchTarget, hsext, BitVec.toNat_add, BitVec.toNat_ofInt]
  omega

theorem takenPenalty_of_samePage {pc target : Word} (h : target.toNat / 256 = pc.toNat / 256) :
    takenPenalty pc target = 1 := by
  rw [takenPenalty, decide_eq_false (mt (hiByte_ne_iff target pc).mp (not_not.mpr h))]; rfl

theorem takenPenalty_of_otherPage {pc target : Word} (h : target.toNat / 256 ≠ pc.toNat / 256) :
    takenPenalty pc target = 2 := by
  rw [takenPenalty, decide_eq_true ((hiByte_ne_iff target pc).mpr h)]; rfl

/-! ### Transfers without a store -/

theorem execJmp_eq (addr : Word) (s : State) : execJmp addr s = .next { s with pc := addr } := rfl

theorem execNop_eq (s : State) : execNop s = .next s := rfl

/-- A transfer without a store writes at most SP, PC and the cycle counter. -/
theorem keepsRegisters_transfer (s : State) (sp : Byte) (pc : Word) (n : Nat) :
    KeepsRegisters s { s with sp := sp, pc := pc, cycles := n } :=
  ⟨rfl, rfl, rfl, rfl, rfl, rfl⟩

/-! ### The statements -/

/-- Settles O29: the return address is `PC - 1`, and its two pushes are two stores at different addresses. -/
theorem jsrPushesReturnAddress : Obligations.JsrPushesReturnAddress := by
  refine fun addr => ⟨rfl, fun s high low ret hhigh hlow hret => ?_⟩
  have hpred : ret = (s.pc - 1).toNat := by bv_omega
  have hsp : (s.sp - 1 - 1).toNat = (s.sp.toNat + 254) % 256 := by
    rw [toNat_sub_one, toNat_sub_one]
    omega
  rw [← stackAddress_eq_ofNat] at hhigh
  rw [← toNat_sub_one, ← stackAddress_eq_ofNat] at hlow
  rw [hhigh, hlow, hpred, ← hiByte_eq_ofNat, ← loByte_eq_ofNat]
  refine ⟨_, execJsr_eq addr s, rfl, ?_, s.stored_push_push_fst _ _, s.stored_push_push_snd _ _,
    s.sameMemoryBut_push_push _ _, s.keepsRegisters_push_push _ _, ?_⟩
  · rw [State.push_sp, State.push_sp, hsp]
  · rw [State.push_cycles, State.push_cycles]

/-- Settles O30: the two pulls read at SP plus one and SP plus two. -/
theorem rtsReturnsToPulledAddress : Obligations.RtsReturnsToPulledAddress := by
  refine ⟨rfl, ?_⟩
  rintro s lo hi rfl rfl
  have hone : (s.sp + 1).toNat = (s.sp.toNat + 1) % 256 := BitVec.toNat_add s.sp 1
  have htwo : (s.sp + 1 + 1).toNat = (s.sp.toNat + 2) % 256 := by
    rw [BitVec.toNat_add, hone, Nat.mod_add_mod]; rfl
  rw [← hone, ← htwo, ← stackAddress_eq_ofNat, ← stackAddress_eq_ofNat]
  refine ⟨_, execRts_eq s, ?_, rfl, keepsRegisters_transfer s _ _ _, SameMemory.of_mem rfl, rfl⟩
  rw [BitVec.toNat_add, toNat_wordOf]; rfl

/-- Settles O31: what RTS pulls (O30) is what JSR pushed (O29), and the address it goes to is one more than `PC - 1`. -/
theorem rtsReturnsFromJsr : Obligations.RtsReturnsFromJsr := by
  intro s addr hhigh hlow
  obtain ⟨-, hjsr⟩ := jsrPushesReturnAddress addr
  obtain ⟨t, ht, -, hsp, ⟨-, hstoredHigh⟩, ⟨-, hstoredLow⟩, -⟩ := hjsr s _ _ _ rfl rfl rfl
  refine ⟨t, ht, fun u hu hstack => ?_⟩
  obtain ⟨-, hrts⟩ := rtsReturnsToPulledAddress
  obtain ⟨w, hw, hpc, hwsp, -⟩ := hrts u _ _ rfl rfl
  have hspLt := s.sp.isLt
  have hone : (u.sp.toNat + 1) % 256 = (s.sp.toNat + 255) % 256 := by rw [hu, hsp]; omega
  have htwo : (u.sp.toNat + 2) % 256 = s.sp.toNat := by rw [hu, hsp]; omega
  have hlo := hstack 1 (.inl rfl)
  have hhi := hstack 2 (.inr rfl)
  rw [hone, hstoredLow hlow] at hlo
  rw [htwo, hstoredHigh hhigh] at hhi
  refine ⟨w, hw, BitVec.eq_of_toNat_eq ?_, BitVec.eq_of_toNat_eq (hwsp.trans htwo)⟩
  rw [hpc, hone, htwo, hlo, hhi, BitVec.toNat_ofNat, BitVec.toNat_ofNat]
  have hpcLt := s.pc.isLt
  omega

/-- Settles O32: with Z set the PC and the penalty are the branch target's, with Z clear nothing changes. -/
theorem beqBranchesOnZ : Obligations.BeqBranchesOnZ := by
  refine fun off => ⟨rfl, fun s => ?_⟩
  cases hz : s.p.z with
  | true =>
    refine ⟨_, execBeq_taken off hz, fun _ => ⟨s.toNat_branchTarget off, ?_, ?_⟩, nofun, rfl,
      keepsRegisters_transfer s _ _ _, SameMemory.of_mem rfl⟩
    · exact fun hpage => congrArg (s.cycles + ·) (takenPenalty_of_samePage hpage)
    · exact fun hpage => congrArg (s.cycles + ·) (takenPenalty_of_otherPage hpage)
  | false =>
    exact ⟨s, execBeq_untaken off hz, nofun, fun _ => ⟨rfl, rfl⟩, rfl, keepsRegisters_transfer s s.sp s.pc s.cycles,
      SameMemory.of_mem rfl⟩

/-- Settles O28: the one update is PC's. -/
theorem jmpGoesToOperand : Obligations.JmpGoesToOperand := fun addr =>
  ⟨rfl, fun s => ⟨_, execJmp_eq addr s, rfl, rfl, keepsRegisters_transfer s _ _ _, SameMemory.of_mem rfl, rfl⟩⟩

/-- Settles O33: NOP completes with the state it started from. -/
theorem nopChangesNothing : Obligations.NopChangesNothing := ⟨rfl, execNop_eq⟩

end Sys2Proof.Machine
end

section
/-! ## Exceptional events (R117 to R125)

The UnknownOpcode halt as one equation of the step and its inversion, the run state that an instruction keeps, and what
each host command does to a halted core. -/

namespace Sys2Proof.Machine

/-! ### An instruction raises no event -/

theorem exec_keeps_control (i : Instr) (s : State) : ∃ t, exec i s = .next t ∧ SameControl s t := by
  obtain ⟨t, ht, hcontrol, -⟩ := exec_memory_effect i s
  exact ⟨t, ht, hcontrol⟩

/-- Settles O12: the outcome is a next state, and no instruction writes the run state or the parameters. -/
theorem everyInstructionCompletes : Obligations.EveryInstructionCompletes := exec_keeps_control

/-! ### The UnknownOpcode halt -/

theorem CanStep.runState_ne_halted {s : State} (h : CanStep s) (r : HaltReason) : s.runState ≠ .halted r := by
  rcases h with h | h <;> rw [h] <;> nofun

/-- The step on a byte with no form that R63 lists, or on any such byte under halt-all (R117). -/
theorem step_of_haltingByte {s : State} (hcan : CanStep s) (hform : s.platform.opcodeTable.form (s.read s.pc) = none)
    (htier : s.read s.pc ∈ haltTierBytes ∨ s.platform.unlistedOpcodePolicy = .haltAll) :
    step s = .next { s with pc := s.pc + 1, runState := .halted .unknownOpcode, cycles := s.cycles + 1 } := by
  rcases step_cases s with ⟨hstuck, -⟩ | ⟨-, -, -, e⟩ | ⟨-, -, -, -, e⟩ | ⟨-, -, hunlisted, hpol, -⟩ |
    ⟨-, ⟨f, hf⟩, -⟩
  · exact absurd hcan hstuck
  · exact e
  · exact e
  · simp [hunlisted, hpol] at htier
  · simp [hform] at hf

/-- A core that can step halts only by the opcode byte: an instruction keeps the run state (R119, R120). -/
theorem haltingByte_of_step_halts {s t : State} (hcan : CanStep s) (h : step s = .next t)
    (hhalted : t.runState = .halted .unknownOpcode) :
    s.platform.opcodeTable.form (s.read s.pc) = none ∧
      (s.read s.pc ∈ haltTierBytes ∨ s.platform.unlistedOpcodePolicy = .haltAll) := by
  rcases step_cases s with ⟨hstuck, -⟩ | ⟨-, hform, htier, -⟩ | ⟨-, hform, -, hpol, -⟩ | ⟨-, -, -, -, e⟩ |
    ⟨-, -, i, n, e⟩
  · exact absurd hcan hstuck
  · exact ⟨hform, .inl htier⟩
  · exact ⟨hform, .inr hpol⟩
  · cases e.symm.trans h
  · obtain ⟨u, hu, hrun, -⟩ := exec_keeps_control i
      { s with pc := s.pc + n, cycles := s.cycles + s.platform.baseCycles (s.read s.pc) i }
    cases (e.trans hu).symm.trans h
    exact absurd (hrun.symm.trans hhalted) (hcan.runState_ne_halted _)

theorem step_halts_iff {s : State} (hcan : CanStep s) :
    (∃ t, step s = .next t ∧ t.runState = .halted .unknownOpcode) ↔
      s.platform.opcodeTable.form (s.read s.pc) = none ∧
        (s.read s.pc ∈ haltTierBytes ∨ s.platform.unlistedOpcodePolicy = .haltAll) := by
  constructor
  · rintro ⟨t, h, hhalted⟩
    exact haltingByte_of_step_halts hcan h hhalted
  · rintro ⟨hform, htier⟩
    exact ⟨_, step_of_haltingByte hcan hform htier, rfl⟩

/-- Settles O10: the bytes with no form are those with no descriptor, which R63's and R64's lists divide in R62's
table. -/
theorem undefinedOpcodeHalts : Obligations.UndefinedOpcodeHalts := by
  refine ⟨fun s hcan htable hnone htier => ?_, fun s t hcan htable h hhalted => ?_, fun s hcan htable => ?_⟩
  · exact step_of_haltingByte hcan ((OpcodeTable.form_eq_none_iff htable _).mpr hnone) htier
  · rw [← OpcodeTable.form_eq_none_iff htable]
    exact haltingByte_of_step_halts hcan h hhalted
  · have hhalt := haltTier_not_hasDescriptor (s.read s.pc)
    rw [step_halts_iff hcan, htable, form_r62_eq_none_iff, mem_refusedTierBytes_iff]
    tauto

/-! ### Leaving `Halted` -/

theorem State.loadProgram_runState (s : State) (bytes : List Nat) (addr : Word) :
    (s.loadProgram bytes addr).2.runState = s.runState := by
  unfold State.loadProgram
  split
  · rfl
  · split <;> rfl

/-- In `Halted` every command but `reset` completes and keeps the run state (R33). -/
theorem command_keeps_halted {c : Command} {s : State} {r : HaltReason} (h : s.runState = .halted r)
    (hc : c ≠ .reset) : ∃ t, command c s = .next t ∧ t.runState = s.runState := by
  obtain ⟨-, -, hhalted⟩ := runAndStopChangeRunStateOnly s
  obtain ⟨hrun, hstop, hstep⟩ := hhalted r h
  cases c with
  | reset => exact absurd rfl hc
  | step => exact ⟨s, hstep, rfl⟩
  | run => exact ⟨s, hrun, rfl⟩
  | stop => exact ⟨s, hstop, rfl⟩
  | loadProgram bytes addr => exact ⟨_, rfl, s.loadProgram_runState bytes addr⟩

/-- Settles O48: `reset` makes the core `Idle`, and the other commands keep it `Halted`. -/
theorem onlyResetLeavesHalted : Obligations.OnlyResetLeavesHalted := by
  intro c s r h
  by_cases hc : c = .reset
  · subst hc
    exact ⟨s.hostReset, rfl, iff_of_true (by rw [h]; nofun) rfl, fun _ => rfl⟩
  · obtain ⟨t, ht, hkept⟩ := command_keeps_halted h hc
    exact ⟨t, ht, iff_of_false (not_not.mpr hkept) hc, (absurd · hc)⟩

end Sys2Proof.Machine
end

section
/-! ## Reset and the cycle counter (R132, R133, R141, R143)

What a step does as a function of the cycle count alone: it adds a fixed number to it, or is refused. Then the bytes of
the reset memory, and the reset values for any parameters and for those of `Config.platform`. -/

namespace Sys2Proof.Machine

/-! ### The cycle count is read by nothing -/

@[simp] theorem MemOperand.ea_withCycles (m : MemOperand) (s : State) (c : Nat) :
    m.ea { s with cycles := c } = m.ea s := by
  cases m <;> rfl

@[simp] theorem MemOperand.crossed_withCycles (m : MemOperand) (s : State) (c : Nat) :
    m.crossed { s with cycles := c } = m.crossed s := by
  cases m <;> rfl

@[simp] theorem ReadOperand.value_withCycles (o : ReadOperand) (s : State) (c : Nat) :
    o.value { s with cycles := c } = o.value s := by
  cases o with
  | immediate imm => rfl
  | memory m => simp only [ReadOperand.value, MemOperand.ea_withCycles]; rfl

@[simp] theorem ReadOperand.penalty_withCycles (o : ReadOperand) (s : State) (c : Nat) :
    o.penalty { s with cycles := c } = o.penalty s := by
  cases o with
  | immediate imm => rfl
  | memory m => simp only [ReadOperand.penalty, MemOperand.crossed_withCycles]

/-- Whatever the cycle count of `s` is, `e` completes in the same state but for the count, to which it adds the same
number (R141, R143). -/
def AddsCycles (e : State → Result) (s : State) : Prop :=
  ∃ (t : State) (k : Nat), ∀ c, e { s with cycles := c } = .next { t with cycles := c + k }

/-- Whatever the cycle count of `s` is, `e` is refused, for the same reason. -/
def RefusesAtAnyCycles (e : State → Result) (s : State) : Prop :=
  ∃ r, ∀ c, e { s with cycles := c } = .refused r

theorem AddsCycles.sameButCycles {e : State → Result} {s : State} (h : AddsCycles e s) (n : Nat) :
    Claims.SameButCycles n (e s) (e { s with cycles := s.cycles + n }) := by
  obtain ⟨t, k, h⟩ := h
  have hs : e s = .next { t with cycles := s.cycles + k } := h s.cycles
  rw [hs, h, Nat.add_right_comm]
  exact ⟨fun u hu => by cases hu; rfl, nofun⟩

theorem RefusesAtAnyCycles.sameButCycles {e : State → Result} {s : State} (h : RefusesAtAnyCycles e s) (n : Nat) :
    Claims.SameButCycles n (e s) (e { s with cycles := s.cycles + n }) := by
  obtain ⟨r, h⟩ := h
  have hs : e s = .refused r := h s.cycles
  rw [hs, h]
  exact ⟨nofun, fun _ => id⟩

/-- The number added is the read penalty, the taken branch's penalty, or zero (R92, R93). -/
theorem Meaning.addsCycles {m : Mnemonic} {e : State → Result} (h : Meaning m e) (s : State) : AddsCycles e s := by
  cases h
  case lda o => exact ⟨{ s with a := o.value s, p := s.p.setZN (o.value s) }, o.penalty s, fun c => by simp [loadA_eq]⟩
  case ldx o => exact ⟨{ s with x := o.value s, p := s.p.setZN (o.value s) }, o.penalty s, fun c => by simp [loadX_eq]⟩
  case ldy o => exact ⟨{ s with y := o.value s, p := s.p.setZN (o.value s) }, o.penalty s, fun c => by simp [loadY_eq]⟩
  case sta m => exact ⟨s.write (m.ea s) s.a, 0, fun c => by simp [storeByte_eq, State.write_withCycles]⟩
  case stx m => exact ⟨s.write (m.ea s) s.x, 0, fun c => by simp [storeByte_eq, State.write_withCycles]⟩
  case adc o =>
    exact ⟨{ s with a := adcResult s.a (o.value s) s.p.c, p := s.p.afterAdc s.a (o.value s) }, o.penalty s,
      fun c => by simp [addWithCarry_eq]⟩
  case cmp o => exact ⟨{ s with p := s.p.afterCompare s.a (o.value s) }, o.penalty s, fun c => by simp [compareWith_eq]⟩
  case cpy o => exact ⟨{ s with p := s.p.afterCompare s.y (o.value s) }, o.penalty s, fun c => by simp [compareWith_eq]⟩
  case inx => exact ⟨State.setZN { s with x := s.x + 1 } (s.x + 1), 0, fun _ => rfl⟩
  case iny => exact ⟨State.setZN { s with y := s.y + 1 } (s.y + 1), 0, fun _ => rfl⟩
  case dex => exact ⟨State.setZN { s with x := s.x - 1 } (s.x - 1), 0, fun _ => rfl⟩
  case jmp addr => exact ⟨{ s with pc := addr }, 0, fun _ => rfl⟩
  case jsr addr =>
    exact ⟨{ (s.push (hiByte (s.pc - 1))).push (loByte (s.pc - 1)) with pc := addr }, 0,
      fun c => by simp only [execJsr_eq, State.push_withCycles, Nat.add_zero]⟩
  case rts => exact ⟨{ s.pull.2.pull.2 with pc := wordOf s.pull.2.pull.1 s.pull.1 + 1 }, 0, fun _ => rfl⟩
  case beq off =>
    cases hz : s.p.z
    · exact ⟨s, 0, fun _ => execBeq_untaken off hz⟩
    · exact ⟨{ s with pc := s.branchTarget off }, takenPenalty s.pc (s.branchTarget off),
        fun _ => execBeq_taken off hz⟩
  case nop => exact ⟨s, 0, fun _ => rfl⟩

/-- The fetches neither read nor write the count, and the base cost is chosen by the opcode byte (R142). -/
theorem step_addsCycles_or_refuses (s : State) : AddsCycles step s ∨ RefusesAtAnyCycles step s := by
  by_cases hcan : CanStep s
  · have hstep (c : Nat) := step_of_canStep (s := { s with cycles := c }) hcan
    simp only [State.fetchInstr_withCycles] at hstep
    generalize s.fetchInstr = r at hstep
    obtain ⟨f, u⟩ := r
    cases f with
    | instr op i =>
      obtain ⟨t, k, h⟩ := (exec_meaning i).addsCycles u
      refine .inl ⟨t, s.platform.baseCycles op i + k, fun c => ?_⟩
      rw [← Nat.add_assoc, ← h]
      exact hstep c
    | unknownOpcode => exact .inl ⟨u.haltUnknownOpcode, 1, hstep⟩
    | refusedTier op =>
      cases hpol : s.platform.unlistedOpcodePolicy with
      | refuseDocumented => exact .inr ⟨_, fun c => by rw [hstep, hpol]⟩
      | haltAll => exact .inl ⟨u.haltUnknownOpcode, 1, fun c => by rw [hstep, hpol]; rfl⟩
  · exact .inl ⟨s, 0, fun c => step_of_not_canStep hcan⟩

/-- Settles O38: a step adds the same number to any count, or is refused at any count. -/
theorem cyclesNeverInfluence : Obligations.CyclesNeverInfluence := fun s n =>
  (step_addsCycles_or_refuses s).elim (·.sameButCycles n) (·.sameButCycles n)

/-! ### Reset -/

theorem State.reset_p_toByte : State.reset.p.toByte = 0x24 := by decide

/-- Reset zero-fills the memory and loads FONT_DATA in the font ROM region alone (R132). -/
theorem State.resetWith_read_outside {p : Platform} {a : Word} (ha : ¬ InFontRom p a) :
    (State.resetWith p).read a = 0x00 := by
  refine Memory.read_load_outside [] _ _ _ ?_
  unfold InFontRom at ha
  omega

/-- Settles O45: the registers are those of `State.resetWith`, and a byte is read inside or outside what reset loads. -/
theorem resetLeavesResetValues : Obligations.ResetLeavesResetValues := fun s _ =>
  ⟨s.hostReset, rfl, rfl, rfl, rfl, rfl, State.reset_p_toByte, rfl, rfl, rfl, rfl,
    fun _ => State.resetWith_read_outside, fun _ => fontData_hostReset_read⟩

theorem Config.platform_wellFormed : Config.platform.WellFormed :=
  ⟨by decide, by decide, OpcodeTable.r62_wellFormed⟩

/-- Settles O44: for all legal parameters, of which `Config.platform` is a choice. -/
theorem resetHasInvariant : Obligations.ResetHasInvariant :=
  ⟨fun _ => State.inv_resetWith, State.inv_resetWith Config.platform_wellFormed⟩

theorem Config.not_inFontRom (a : Word) : ¬ InFontRom Config.platform a := fun ⟨_, hend⟩ =>
  Nat.not_lt_zero _ hend

/-- Settles O46: no address is in the empty font ROM, so every byte is outside what reset loads. -/
theorem resetStateHasResetValues : Obligations.ResetStateHasResetValues :=
  ⟨rfl, rfl, rfl, rfl, State.reset_p_toByte, rfl, rfl, rfl, rfl,
    fun a => State.resetWith_read_outside (Config.not_inFontRom a)⟩

end Sys2Proof.Machine
end
